-- ==== Sys2Proof/Word.lean ====
section
/-! DEFINITION. The words of the scrambler core: the 64-bit descriptor, the byte, the 20-bit address field. -/

namespace Sys2Proof

/-- A command descriptor `DESC` (30_encoding.md R53). -/
abbrev Word := BitVec 64

/-- A byte of a buffer, and the fields `DXOR` and `HDR` (20_memory.md R33, 10_state.md R23). -/
abbrev Byte := BitVec 8

/-- The field `AXB`, a plane constant, or the combined address XOR `X` (00_scope.md R7, 40_address_network.md R71).
Buffer positions and the operand `A` are unbounded naturals (D5). -/
abbrev Addr20 := BitVec 20

end Sys2Proof
end

