-- ==== Sys2Proof/Syntax.lean ====
section
/-! DEFINITION. The six commands of the opcode table, and the source lines and pseudo-instructions of the host side. -/

namespace Sys2Proof

/-- Plane kind (00_scope.md R3); the block supports no other. -/
inductive Plane
  | tx
  | bg
deriving DecidableEq, Repr, Inhabited

/-- Operation of a command, the field `OP` of the CMD byte (30_encoding.md R54); the fourth code is reserved. -/
inductive Op
  | net
  | dec
  | enc
deriving DecidableEq, Repr, Inhabited

/-- The commands, one constructor per row of spec/opcode_table.json (30_encoding.md R57).
Each carries the three operand fields of the descriptor, also those its command ignores (R56), as the decoder of R58
returns them. Every term is well formed: the widths of R53 are in the types. -/
inductive Instr
  /-- `NET.TX`, 40_address_network.md R82. -/
  | netTx (axb : Addr20) (dxor hdr : Byte)
  /-- `NET.BG`, 40_address_network.md R83. -/
  | netBg (axb : Addr20) (dxor hdr : Byte)
  /-- `DEC.TX`, 41_byte_transform.md R100. -/
  | decTx (axb : Addr20) (dxor hdr : Byte)
  /-- `DEC.BG`, 41_byte_transform.md R101. -/
  | decBg (axb : Addr20) (dxor hdr : Byte)
  /-- `ENC.TX`, 41_byte_transform.md R102. -/
  | encTx (axb : Addr20) (dxor hdr : Byte)
  /-- `ENC.BG`, 41_byte_transform.md R103. -/
  | encBg (axb : Addr20) (dxor hdr : Byte)
deriving DecidableEq, Repr, Inhabited

/-- The four hardware variants (00_scope.md R2, 30_encoding.md R67). -/
inductive Variant
  | ss91022_10
  | ss92046_01
  | ss92047_01
  | ss92048_01
deriving DecidableEq, Repr, Inhabited

/-- A record of the variant table (10_state.md R29). -/
structure VariantParams where
  axb  : Addr20
  dxor : Byte
  hdr  : Byte
deriving DecidableEq, Repr, Inhabited

/-- The variant table: host side, never mutated, an argument of everything that reads it (10_state.md R29, D14). -/
abbrev VariantTable := Variant → Plane → VariantParams

/-- One command line of the assembler, its operands as the literals read: of any size, not yet checked
(30_encoding.md R62). -/
inductive AsmLine
  | net (p : Plane) (axb a : Nat)
  | dec (p : Plane) (axb dxor : Nat)
  | enc (p : Plane) (axb dxor hdr : Nat)
deriving DecidableEq, Repr

/-- The host-side pseudo-instructions (30_encoding.md R64 to R66); `none` is the operand `-`. -/
inductive Pseudo
  | decv (p : Plane) (v : Variant)
  | encv (p : Plane) (v : Variant)
  | recrypt (p : Plane) (vin vout : Option Variant)
deriving DecidableEq, Repr

/-- A line of assembler source: nothing but space and comment, a command, or a pseudo-instruction
(30_encoding.md R62, R68). -/
inductive SourceLine
  | blank
  | command (l : AsmLine)
  | pseudo (q : Pseudo)
deriving DecidableEq, Repr

end Sys2Proof
end

