-- ==== Sys2Proof/Decode.lean ====
section
/-! DEFINITION. Decoding a descriptor, total on every 64-bit word, and the encoder (30_encoding.md R53 to R61). -/

namespace Sys2Proof

/-- Why a descriptor is illegal (30_encoding.md R59). Each is a CONFIG_ERROR of the command (60_exceptions.md R111). -/
inductive DecodeError
  /-- `DESC[63:44] != 0`. -/
  | reservedHighBits
  /-- `DESC[7:3] != 0`. -/
  | reservedCmdBits
  /-- `DESC[2:1] = 11`. -/
  | reservedOp
deriving DecidableEq, Repr

/-- `DESC[27:8]` (R53). -/
def fieldAxb (d : Word) : Addr20 := d.extractLsb' 8 20

/-- `DESC[35:28]` (R53). -/
def fieldDxor (d : Word) : Byte := d.extractLsb' 28 8

/-- `DESC[43:36]` (R53). -/
def fieldHdr (d : Word) : Byte := d.extractLsb' 36 8

/-- `DESC[63:44]`, reserved (R53). -/
def fieldReserved (d : Word) : BitVec 20 := d.extractLsb' 44 20

/-- `DESC[7:3]`, reserved (R54). -/
def fieldCmdReserved (d : Word) : BitVec 5 := d.extractLsb' 3 5

/-- `DESC[2:1]` (R54). -/
def fieldOp (d : Word) : BitVec 2 := d.extractLsb' 1 2

/-- `DESC[0]`: 0 is tx, 1 is bg (R54). -/
def fieldPlane (d : Word) : Plane := if d.getLsbD 0 then .bg else .tx

/-- The operation an `OP` code names; 11 is reserved (R54). -/
def opOfCode (c : BitVec 2) : Option Op :=
  if c = 0#2 then some .net
  else if c = 1#2 then some .dec
  else if c = 2#2 then some .enc
  else none

/-- The command of an operation and a plane (R57). -/
def Instr.ofFields (o : Op) (p : Plane) (axb : Addr20) (dxor hdr : Byte) : Instr :=
  match o, p with
  | .net, .tx => .netTx axb dxor hdr
  | .net, .bg => .netBg axb dxor hdr
  | .dec, .tx => .decTx axb dxor hdr
  | .dec, .bg => .decBg axb dxor hdr
  | .enc, .tx => .encTx axb dxor hdr
  | .enc, .bg => .encBg axb dxor hdr

/-- The decoder, its checks in the order of R58. -/
def decode (d : Word) : Except DecodeError Instr :=
  if fieldReserved d ≠ 0#20 then .error .reservedHighBits
  else if fieldCmdReserved d ≠ 0#5 then .error .reservedCmdBits
  else
    match opOfCode (fieldOp d) with
    | none => .error .reservedOp
    | some o => .ok (Instr.ofFields o (fieldPlane d) (fieldAxb d) (fieldDxor d) (fieldHdr d))

/-- The CMD byte of a command (R57). -/
def Instr.cmd : Instr → Byte
  | .netTx .. => 0x00#8
  | .netBg .. => 0x01#8
  | .decTx .. => 0x02#8
  | .decBg .. => 0x03#8
  | .encTx .. => 0x04#8
  | .encBg .. => 0x05#8

/-- The plane of a command (R57). -/
def Instr.plane : Instr → Plane
  | .netTx .. | .decTx .. | .encTx .. => .tx
  | .netBg .. | .decBg .. | .encBg .. => .bg

/-- The operation of a command (R57). -/
def Instr.op : Instr → Op
  | .netTx .. | .netBg .. => .net
  | .decTx .. | .decBg .. => .dec
  | .encTx .. | .encBg .. => .enc

/-- The operand `AXB`. -/
def Instr.axb : Instr → Addr20
  | .netTx axb _ _ | .netBg axb _ _ | .decTx axb _ _ | .decBg axb _ _ | .encTx axb _ _ | .encBg axb _ _ => axb

/-- The operand `DXOR`. -/
def Instr.dxor : Instr → Byte
  | .netTx _ dxor _ | .netBg _ dxor _ | .decTx _ dxor _ | .decBg _ dxor _ | .encTx _ dxor _ | .encBg _ dxor _ => dxor

/-- The operand `HDR`. -/
def Instr.hdr : Instr → Byte
  | .netTx _ _ hdr | .netBg _ _ hdr | .decTx _ _ hdr | .decBg _ _ hdr | .encTx _ _ hdr | .encBg _ _ hdr => hdr

/-- Packing the fields: `DESC = CMD | (AXB << 8) | (DXOR << 28) | (HDR << 36)` (R53). -/
def packDesc (cmd : Byte) (axb : Addr20) (dxor hdr : Byte) : Word :=
  cmd.setWidth 64 ||| (axb.setWidth 64 <<< 8) ||| (dxor.setWidth 64 <<< 28) ||| (hdr.setWidth 64 <<< 36)

/-- The encoder. -/
def encode (i : Instr) : Word := packDesc i.cmd i.axb i.dxor i.hdr

/-- A reserved encoding, in the words of R59. -/
def reservedDesc (d : Word) : Bool :=
  fieldCmdReserved d != 0#5 || fieldOp d == 3#2 || fieldReserved d != 0#20

/-- The instruction the decoder reads from `nbits` bits `w`, numbered as the opcode table numbers them: bit 0 is bit 0
of DESC, and every bit from `nbits` up is 0. The block stores its commands in no memory (20_memory.md R50), so no byte
order comes in. -/
def decodeTableWord (nbits w : Nat) : Option Instr :=
  match decode (BitVec.ofNat 64 (w % 2 ^ nbits)) with
  | .ok i => some i
  | .error _ => none

end Sys2Proof
end

