-- ==== Sys2Proof/Config.lean ====
section
/-! DEFINITION. What the spec leaves open: the open parameters and the free values. A constant with no body is any value at all. -/

namespace Sys2Proof

/-- How far the open address width `AW` exceeds 20 bits (00_scope.md R7). Nothing constrains it. -/
opaque Config.awExtra : Nat

/-- The open parameter `AW >= 20`, the width of a buffer address and of the operand `A` (00_scope.md R7, D5).
The machine itself takes addresses as unbounded naturals; the host's duties and its assembler take a width as an
argument, and this is the width of the block at hand (log 2). -/
def Config.aw : Nat := 20 + Config.awExtra

/-- The variant table where the source gives no value (N2). Nothing constrains it. -/
opaque Config.openVariantTable : VariantTable

/-- The open parameter `VariantTable` with the one value the source gives, `data_xor(SS91022-10, tx) = 0x35`
(10_state.md R29, D14; log 7). -/
def Config.variantTable : VariantTable := fun v p =>
  match v, p with
  | .ss91022_10, .tx => { Config.openVariantTable .ss91022_10 .tx with dxor := 0x35#8 }
  | v, p => Config.openVariantTable v p

/-- The byte DST holds at a position after the reset with that number that abandoned a command: any value
(70_reset_and_hazards.md R131, U4; log 6). -/
opaque Config.freeByte : Nat → Nat → Byte

/-- What a position with no cell reads as. A representation: the host supplies every byte of a buffer, and the
canonical form lists those that are not this one (DESIGN CHOICE, log 5). -/
def Config.blankByte : Byte := 0#8

end Sys2Proof
end

