-- ==== Sys2Proof/Machine/State.lean ====
section
/-! DEFINITION. The state of the block and of its ports, what it answers, and why a step can stop. -/

namespace Sys2Proof.Machine

/-- Why the machine stops. Both are raised by an access outside a buffer (20_memory.md R35, R36: the accesses are defined
only below LEN). The admissibility checks precede every access, so no step ever raises one (R35 "the model therefore
never reaches"); were it raised, it would be safe: nothing is claimed of the access. -/
inductive Fault
  /-- `SrcRead(a)` with `a >= LEN`, raised by `State.srcRead`. Safe, and reached by no step. -/
  | srcOutsideBuffer (a : Nat)
  /-- `DstWrite(a, v)` with `a >= LEN`, raised by `dstWrite`. Safe, and reached by no step. -/
  | dstOutsideBuffer (a : Nat)
deriving DecidableEq, Repr

/-- Why the model gives no meaning. No command of the block is refused: COLLISION_REFUSED is a response, after which the
block is idle (60_exceptions.md R113, R117). -/
inductive Refusal
  /-- An instruction with no meaning yet; raised by no arm. Safe. -/
  | notModelled (mnemonic : String)
  /-- The host bound one buffer to both ports (70_reset_and_hazards.md R134, U6); raised by the host's driver. Safe. -/
  | aliasedBuffers
  /-- The host bound a buffer it does not have; raised by the host's driver. Safe. -/
  | noSuchBuffer
deriving DecidableEq, Repr

/-- The status codes (60_exceptions.md R110). -/
inductive Status
  | ok
  | configError
  | rangeFault
  | collisionRefused
deriving DecidableEq, Repr

/-- The response of a command (10_state.md R26). The result of an OK buffer command is the LEN bytes of DST, which the
same step commits to `State.dst`. -/
inductive Response
  /-- OK with JOUT, of a `NET` command. -/
  | okAddress (jout : Nat)
  /-- OK, of a buffer command. -/
  | okBuffer
  | configError
  | rangeFault
  | collisionRefused
deriving DecidableEq, Repr

/-- The bytes of one buffer: cells (position, byte), positions strictly rising, no cell with the byte a position with no
cell reads as (`Memory.wf`). -/
abbrev Memory := List Host.Cell

/-- The state. The host's ports are `desc`, `a`, `issued`, `len`, `src` and `dst`; of these the block takes `issued` and
writes `dst`, nothing else. Beside them the block has its response and BUSY. -/
structure State where
  /-- DESC, the command descriptor (10_state.md R23). -/
  desc : Word
  /-- A, the address operand of a `NET` command (10_state.md R24). -/
  a : Nat
  /-- The host has issued the command at the port and the block has not run it (10_state.md R13; log 3). The window
  between the two, with BUSY 0, is the model's own (log 18). -/
  issued : Bool
  /-- LEN, the length of SRC and of DST (10_state.md R25, 20_memory.md R34). -/
  len : Nat
  /-- SRC (20_memory.md R32, R35). -/
  src : Memory
  /-- DST (20_memory.md R32, R36). -/
  dst : Memory
  /-- The response of the command that has just ended; none before one ends, and no copy is kept (10_state.md R26). -/
  response : Option Response
  /-- BUSY (10_state.md R27). -/
  busy : Bool
  /-- The model's own counter of the resets that abandoned a command, which numbers the free bytes (log 6). -/
  freeTick : Nat
deriving DecidableEq, Repr

/-- After reset: idle, no command in flight, no response pending (70_reset_and_hazards.md R128). The spec gives the host's
ports no value (10_state.md R31); they are 0 and empty here (DESIGN CHOICE, log 4). -/
def State.reset : State where
  desc := 0#64
  a := 0
  issued := false
  len := 0
  src := []
  dst := []
  response := none
  busy := false
  freeTick := 0

end Sys2Proof.Machine
end

