-- ==== Sys2Proof/Machine/Constants.lean ====
section
/-! DEFINITION. The hardwired constants of the block (10_state.md R17 to R22). They are the same after reset as ever (R129). -/

namespace Sys2Proof.Machine

/-- `PLANE_CONST[P]` (R17). -/
def planeConst : Plane → Addr20
  | .tx => 0x1005d#20
  | .bg => 0xc1c5b#20

/-- `NET_BITS[P]`: the network bits of a plane (00_scope.md R7, C1). -/
def netBits : Plane → Nat
  | .tx => 19
  | .bg => 20

/-- `NET_TABLE[tx]`, 19 pairs (source bit, target mask), in the order of R18. -/
def netTableTx : List (Nat × Nat) :=
  [(18, 0x40000), (17, 0x60000), (7, 0x70000), (3, 0x78000), (14, 0x7c000), (13, 0x7e000), (0, 0x7f000),
   (11, 0x7f800), (10, 0x7fc00), (9, 0x00200), (8, 0x00300), (16, 0x00380), (6, 0x003c0), (12, 0x003e0),
   (4, 0x003f0), (15, 0x003f8), (2, 0x003fc), (1, 0x003fe), (5, 0x003ff)]

/-- `NET_TABLE[bg]`, 20 pairs (source bit, target mask), in the order of R19. -/
def netTableBg : List (Nat × Nat) :=
  [(19, 0x80000), (8, 0xc0000), (17, 0xe0000), (2, 0xf0000), (15, 0xf8000), (14, 0xfc000), (13, 0xfe000),
   (12, 0xff000), (1, 0xff800), (10, 0xffc00), (9, 0x00200), (3, 0x00300), (7, 0x00380), (6, 0x003c0),
   (5, 0x003e0), (4, 0x003f0), (18, 0x003f8), (16, 0x003fc), (11, 0x003fe), (0, 0x003ff)]

/-- `NET_TABLE[P]` (R18, R19). -/
def netTable : Plane → List (Nat × Nat)
  | .tx => netTableTx
  | .bg => netTableBg

/-- `HDR_LEN[P]` (R21). -/
def hdrLen : Plane → Nat
  | .tx => 0x40
  | .bg => 0x100

end Sys2Proof.Machine
end

