-- ==== Sys2Proof/Machine/Operands.lean ====
section
/-! DEFINITION. Operand assembly, the address permutation network and the per-byte functions
(30_encoding.md R55, 40_address_network.md R69 to R76, 41_byte_transform.md R84 to R90). -/

namespace Sys2Proof.Machine

/-- The combined address XOR `X = AXB ^ PLANE_CONST[P]` (R71). -/
def combinedXor (p : Plane) (axb : Addr20) : Addr20 := axb ^^^ planeConst p

/-- The working address `w = i ^ X` (R72). -/
def workingAddr (x : Addr20) (i : Nat) : Nat := i ^^^ x.toNat

/-- The loop of R73 and R74 over a table: start from 0 and, for each pair (b, m), XOR in `m` if bit `b` of `w` is set. -/
def netOf (table : List (Nat × Nat)) (w : Nat) : Nat :=
  table.foldl (fun j e => if w.testBit e.1 then j ^^^ e.2 else j) 0

/-- `NET_P(w)` (R73, R74). -/
def net (p : Plane) (w : Nat) : Nat := netOf (netTable p) w

/-- `i` with its low `n` bits cleared: `i & ~0xfffff` is `(i >> 20) << 20`, here for any number of bits (00_scope.md
R9). -/
def clearLow (n i : Nat) : Nat := (i >>> n) <<< n

/-- The pass-through of the original logical address: bg keeps every bit from position 20 up, tx keeps none
(10_state.md R20). -/
def passHigh : Plane → Nat → Nat
  | .tx, _ => 0
  | .bg, i => clearLow 20 i

/-- The address map `J_P(i)` (R75). -/
def addrMap (p : Plane) (x : Addr20) (i : Nat) : Nat := passHigh p i ||| net p (workingAddr x i)

/-- `i & 0xff` as a byte (00_scope.md R9). -/
def lowByte (i : Nat) : Byte := BitVec.ofNat 8 (i &&& 0xff)

/-- `MASK(i) = (i & 0xff) ^ DXOR`, on the logical address in both directions (41_byte_transform.md R85). -/
def dataMask (dxor : Byte) (i : Nat) : Byte := lowByte i ^^^ dxor

/-- `DecByte(i, c)` (R86); no header handling (R87). -/
def decByte (dxor : Byte) (i : Nat) (c : Byte) : Byte := c ^^^ dataMask dxor i

/-- `EncValue(i, p)`: the header byte in the header region of the logical addresses (R88). -/
def encValue (p : Plane) (hdr : Byte) (i : Nat) (v : Byte) : Byte := if i < hdrLen p then hdr else v

/-- `EncByte(i, p)` (R89). -/
def encByte (p : Plane) (hdr dxor : Byte) (i : Nat) (v : Byte) : Byte := encValue p hdr i v ^^^ dataMask dxor i

end Sys2Proof.Machine
end

