-- ==== Sys2Proof/Machine/Flags.lean ====
section
/-! DEFINITION. The block has no flags (10_state.md R16): the one condition a command reports is its STATUS. Here are the
status codes and the two admissibility checks that decide it (60_exceptions.md R110, 41_byte_transform.md R93, R94). -/

namespace Sys2Proof.Machine

/-- The 2-bit code of a status (60_exceptions.md R110). -/
def Status.code : Status → BitVec 2
  | .ok => 0#2
  | .configError => 1#2
  | .rangeFault => 2#2
  | .collisionRefused => 3#2

/-- The STATUS a response carries (10_state.md R26). -/
def Response.status : Response → Status
  | .okAddress _ => .ok
  | .okBuffer => .ok
  | .configError => .configError
  | .rangeFault => .rangeFault
  | .collisionRefused => .collisionRefused

/-- A test holds for `n` numbers from `i` up; it stops at the first for which it does not. -/
def allFrom (f : Nat → Bool) : Nat → Nat → Bool
  | _, 0 => true
  | i, n + 1 => f i && allFrom f (i + 1) n

/-- A test holds for every number below `len`. -/
def allBelow (len : Nat) (f : Nat → Bool) : Bool := allFrom f 0 len

/-- `InRange(P, X, LEN)`: every logical address of the buffer maps into the buffer (R93). -/
def inRange (p : Plane) (x : Addr20) (len : Nat) : Bool :=
  allBelow len fun i => decide (addrMap p x i < len)

/-- `Injective(P, X, LEN)`: no two logical addresses of the buffer map to one position (R94). -/
def injective (p : Plane) (x : Addr20) (len : Nat) : Bool :=
  allBelow len fun i₁ => allBelow len fun i₂ => i₁ == i₂ || addrMap p x i₁ != addrMap p x i₂

end Sys2Proof.Machine
end

