-- ==== Sys2Proof/Machine/Ops.lean ====
section
/-! DEFINITION. The named operations: buffers in canonical form, the two memory ports, issuing a command, ending one with
OK or with a status, the idle step and reset. -/

namespace Sys2Proof.Machine

/-! ### Buffers -/

/-- The byte at a position; a position with no cell reads as `Config.blankByte`. -/
def Memory.read : Memory → Nat → Byte
  | [], _ => Config.blankByte
  | (b, v) :: m, a => if a = b then v else Memory.read m a

/-- Puts a cell in before the first cell of a higher position. -/
def Memory.insertCell : Memory → Nat → Byte → Memory
  | [], a, v => [(a, v)]
  | (b, w) :: m, a, v => if a < b then (a, v) :: (b, w) :: m else (b, w) :: Memory.insertCell m a v

/-- Sets the byte at a position and keeps the canonical form: no cell for a byte an unlisted position reads as. -/
def Memory.write (m : Memory) (a : Nat) (v : Byte) : Memory :=
  let rest := m.filter fun c => c.1 != a
  if v = Config.blankByte then rest else Memory.insertCell rest a v

/-- The canonical form: positions strictly rising, no cell that an unlisted position would read the same. -/
def Memory.wf : Memory → Bool
  | [] => true
  | (a, v) :: m => v != Config.blankByte && m.all (fun c => decide (a < c.1)) && Memory.wf m

/-- Every cell stands below a length. -/
def Memory.within (len : Nat) (m : Memory) : Bool := m.all fun c => decide (c.1 < len)

/-- The buffer of `len` bytes whose byte at each position the function gives. -/
def Memory.ofBytes (f : Nat → Byte) : Nat → Memory
  | 0 => []
  | n + 1 => Memory.write (Memory.ofBytes f n) n (f n)

/-! ### The memory ports -/

/-- `SrcRead(a)`, defined only below LEN (20_memory.md R35). -/
def State.srcRead (s : State) (a : Nat) : Except Fault Byte :=
  if a < s.len then .ok (Memory.read s.src a) else .error (.srcOutsideBuffer a)

/-- `DstWrite(a, v)` on a staging copy of DST, defined only below LEN (20_memory.md R36). -/
def dstWrite (len : Nat) (staging : Memory) (a : Nat) (v : Byte) : Except Fault Memory :=
  if a < len then .ok (Memory.write staging a v) else .error (.dstOutsideBuffer a)

/-- What one step does at a logical address: the position and the byte it writes to the staging copy. -/
abbrev AddressStep := Nat → Except Fault (Nat × Byte)

/-- Runs the per-address steps of a buffer command over the logical addresses in the order given (41_byte_transform.md
R91, R92; the order is free, R99). -/
def runSteps (len : Nat) (stepAt : AddressStep) : List Nat → Memory → Except Fault Memory
  | [], staging => .ok staging
  | i :: rest, staging =>
    match stepAt i with
    | .error f => .error f
    | .ok (a, v) =>
      match dstWrite len staging a v with
      | .error f => .error f
      | .ok staging' => runSteps len stepAt rest staging'

/-- The decrypt step at `i`: `DstWrite(i, DecByte(i, SrcRead(J_P(i))))` (R91). -/
def State.decStep (s : State) (p : Plane) (x : Addr20) (dxor : Byte) : AddressStep := fun i =>
  match s.srcRead (addrMap p x i) with
  | .error f => .error f
  | .ok c => .ok (i, decByte dxor i c)

/-- The encrypt step at `i`: `DstWrite(J_P(i), EncByte(i, SrcRead(i)))` (R91). -/
def State.encStep (s : State) (p : Plane) (x : Addr20) (dxor hdr : Byte) : AddressStep := fun i =>
  match s.srcRead i with
  | .error f => .error f
  | .ok v => .ok (addrMap p x i, encByte p hdr dxor i v)

/-! ### A command from issue to response -/

/-- The host binds the buffer ports: LEN, SRC and the storage of DST (70_reset_and_hazards.md R132). That a rebind while a
command is issued and not yet run is taken, and that command then runs on the new buffers, is the model's choice (DESIGN
CHOICE, log 18; R27 and R136 speak of BUSY = 1 only). -/
def State.bindBuffers (s : State) (len : Nat) (src dst : Memory) : State :=
  { s with len := len, src := src, dst := dst }

/-- The host issues a command: it writes DESC and A and raises the port's valid line. No response has a value before the
command ends (10_state.md R26). That a second issue before the block has run the first replaces it, and the first ends
without a response, is the model's choice (DESIGN CHOICE, log 18; R27 and R136 speak of BUSY = 1 only). -/
def State.issue (s : State) (desc : Word) (a : Nat) : State :=
  { s with desc := desc, a := a, issued := true, response := none }

/-- The block takes the command: it is in flight, BUSY is 1 (10_state.md R27). -/
def State.accept (s : State) : State :=
  { s with issued := false, busy := true, response := none }

/-- A command ends with OK: the staging copy becomes DST as one event (20_memory.md R44), the response goes to the host
and BUSY is 0. -/
def State.endOk (s : State) (r : Response) (dst : Memory) : State :=
  { s with dst := dst, response := some r, busy := false }

/-- A command ends with a non-OK status: no DST byte is written, the status is returned, BUSY is 0, and no other state
changes (60_exceptions.md R116). There is no return from it: the block is idle and takes the next command (R117). -/
def State.endNonOk (s : State) (r : Response) : State :=
  { s with response := some r, busy := false }

/-- No command is issued: the block stays idle and keeps no copy of a response (70_reset_and_hazards.md R130,
10_state.md R26, R27; log 10). -/
def State.idle (s : State) : State :=
  { s with response := none, busy := false }

/-- A command is in flight for a reset: the host has issued it and it has not ended. R27 ties "in flight" to BUSY = 1;
that an issued command counts as well, while BUSY is still 0, is the model's choice (DESIGN CHOICE, log 6, log 18). -/
def State.inFlight (s : State) : Bool := s.issued || s.busy

/-- Reset as an event at any time (70_reset_and_hazards.md R128, R131): the block is idle, the command in flight is
abandoned without a response, SRC is unchanged, and every byte of DST has a free value if a command was in flight. That the
other ports are kept, and SRC and DST too when nothing was in flight, is the model's choice (DESIGN CHOICE, log 6; R31
leaves them open). -/
def State.assertReset (s : State) : State :=
  if s.inFlight then
    { s with
      issued := false, busy := false, response := none,
      dst := Memory.ofBytes (Config.freeByte s.freeTick) s.len, freeTick := s.freeTick + 1 }
  else
    { s with issued := false, busy := false, response := none }

/-- The outcome of a computation that can only stop by a fault. -/
def outcomeOf {α : Type} (finish : α → State) : Except Fault α → Host.Outcome State Fault Refusal
  | .ok v => .next (finish v)
  | .error f => .fault f

/-! ### The two shared procedures of the commands -/

/-- The address query of `NET.TX` and `NET.BG`: `return (OK, J_P(A))`, no memory access (40_address_network.md R82,
R83). -/
def queryAddress (p : Plane) (axb : Addr20) (s : State) : Host.Outcome State Fault Refusal :=
  .next (s.endOk (.okAddress (addrMap p (combinedXor p axb) s.a)) s.dst)

/-- `DECRYPT(P)` (41_byte_transform.md R96). -/
def decryptBuffer (p : Plane) (axb : Addr20) (dxor : Byte) (s : State) : Host.Outcome State Fault Refusal :=
  let x := combinedXor p axb
  if inRange p x s.len then
    outcomeOf (s.endOk .okBuffer) (runSteps s.len (s.decStep p x dxor) (List.range s.len) s.dst)
  else .next (s.endNonOk .rangeFault)

/-- `ENCRYPT(P)` (41_byte_transform.md R97). -/
def encryptBuffer (p : Plane) (axb : Addr20) (dxor hdr : Byte) (s : State) : Host.Outcome State Fault Refusal :=
  let x := combinedXor p axb
  if inRange p x s.len then
    if injective p x s.len then
      outcomeOf (s.endOk .okBuffer) (runSteps s.len (s.encStep p x dxor hdr) (List.range s.len) s.dst)
    else .next (s.endNonOk .collisionRefused)
  else .next (s.endNonOk .rangeFault)

end Sys2Proof.Machine
end

