-- ==== Sys2Proof/Machine/Buffer.lean ====
section
/-! DEFINITION. The buffer commands (41_byte_transform.md R100 to R103). -/

namespace Sys2Proof.Machine

/-- `DEC.TX axb, dxor` (R100); HDR and A are ignored. -/
def execDecTx (axb : Addr20) (dxor : Byte) (s : State) : Host.Outcome State Fault Refusal :=
  decryptBuffer .tx axb dxor s

/-- `DEC.BG axb, dxor` (R101); HDR and A are ignored. -/
def execDecBg (axb : Addr20) (dxor : Byte) (s : State) : Host.Outcome State Fault Refusal :=
  decryptBuffer .bg axb dxor s

/-- `ENC.TX axb, dxor, hdr` (R102); A is ignored. -/
def execEncTx (axb : Addr20) (dxor hdr : Byte) (s : State) : Host.Outcome State Fault Refusal :=
  encryptBuffer .tx axb dxor hdr s

/-- `ENC.BG axb, dxor, hdr` (R103); A is ignored. -/
def execEncBg (axb : Addr20) (dxor hdr : Byte) (s : State) : Host.Outcome State Fault Refusal :=
  encryptBuffer .bg axb dxor hdr s

end Sys2Proof.Machine
end

