-- ==== Sys2Proof/Machine/Net.lean ====
section
/-! DEFINITION. The address query commands (40_address_network.md R82, R83). -/

namespace Sys2Proof.Machine

/-- `NET.TX axb, a` (R82); DXOR and HDR are ignored. -/
def execNetTx (axb : Addr20) (s : State) : Host.Outcome State Fault Refusal :=
  queryAddress .tx axb s

/-- `NET.BG axb, a` (R83); DXOR and HDR are ignored. -/
def execNetBg (axb : Addr20) (s : State) : Host.Outcome State Fault Refusal :=
  queryAddress .bg axb s

end Sys2Proof.Machine
end

