-- ==== Sys2Proof/Machine/Dispatch.lean ====
section
/-! DEFINITION. One arm per command. -/

namespace Sys2Proof.Machine

def exec (i : Instr) (s : State) : Host.Outcome State Fault Refusal :=
  match i with
  | .netTx axb _ _ => Sys2Proof.Machine.execNetTx axb s
  | .netBg axb _ _ => Sys2Proof.Machine.execNetBg axb s
  | .decTx axb dxor _ => Sys2Proof.Machine.execDecTx axb dxor s
  | .decBg axb dxor _ => Sys2Proof.Machine.execDecBg axb dxor s
  | .encTx axb dxor hdr => Sys2Proof.Machine.execEncTx axb dxor hdr s
  | .encBg axb dxor hdr => Sys2Proof.Machine.execEncBg axb dxor hdr s

end Sys2Proof.Machine
end

