-- ==== Sys2Proof/Machine/Step.lean ====
section
/-! DEFINITION. One step of the block: a whole command, or an idle step. -/

namespace Sys2Proof.Machine

/-- One step. A command the host has issued is taken, decoded and run whole (10_state.md R13; an illegal descriptor ends
with CONFIG_ERROR before anything else is done, 30_encoding.md R58); with no command issued the block stays idle
(70_reset_and_hazards.md R130). -/
def step (s : State) : Host.Outcome State Fault Refusal :=
  if s.issued then
    match decode s.desc with
    | .ok i => exec i s.accept
    | .error _ => .next (s.accept.endNonOk .configError)
  else .next s.idle

/-- The state in which the host has issued the descriptor of `nbits` bits `w`, with the operand A and the buffers that
the ports of `s` already hold; the next step runs it. The block fetches nothing (20_memory.md R50), so this stands for
the host's issue (log 3). -/
def State.withFetchWord (s : State) (nbits w : Nat) : State :=
  s.issue (BitVec.ofNat 64 (w % 2 ^ nbits)) s.a

end Sys2Proof.Machine
end

