-- ==== Sys2Proof/WellFormed.lean ====
section
/-! DEFINITION. The operand checks of the assembler: "an operand out of range is an assembly error" (30_encoding.md R62).
An `Instr` needs no check: its field widths are in its type. -/

namespace Sys2Proof

/-- `axb` is a 20-bit value (30_encoding.md R62). -/
def axbFits (axb : Nat) : Bool := decide (axb < 2 ^ 20)

/-- `dxor` and `hdr` are 8-bit values (30_encoding.md R62). -/
def byteFits (b : Nat) : Bool := decide (b < 2 ^ 8)

/-- `a` is an address below `2^AW` (30_encoding.md R62). -/
def addressFits (aw a : Nat) : Bool := decide (a < 2 ^ aw)

/-- Every operand of the line is in its range (30_encoding.md R62). -/
def AsmLine.wf (aw : Nat) : AsmLine → Bool
  | .net _ axb a => axbFits axb && addressFits aw a
  | .dec _ axb dxor => axbFits axb && byteFits dxor
  | .enc _ axb dxor hdr => axbFits axb && byteFits dxor && byteFits hdr

end Sys2Proof
end

