-- ==== Sys2Proof/Machine/Driver.lean ====
section
/-! DEFINITION. The host side: its buffers, how it binds and issues commands, and the pipeline driver's
pseudo-instructions (30_encoding.md R64 to R68, 70_reset_and_hazards.md R132 to R135). -/

namespace Sys2Proof.Machine

/-- A buffer of the host: its length and its bytes (20_memory.md R33). -/
structure HostBuffer where
  len   : Nat
  bytes : Memory
deriving DecidableEq, Repr, Inhabited

/-- The host with the block: the buffers it owns, named by their place in the list. -/
structure HostSide where
  block   : State
  buffers : List HostBuffer
deriving DecidableEq, Repr

/-- A command as the host issues it: the descriptor, A, and the buffers it binds to SRC and DST. With no buffers bound
both ports have length 0, as for a `NET` command, which ignores them (30_encoding.md R56). -/
structure HostCommand where
  desc  : Word
  a     : Nat
  ports : Option (Nat × Nat)
deriving DecidableEq, Repr

/-- The storage of `len` bytes that the host provides for DST out of a buffer (R132): the bytes of the buffer below `len`.
A buffer of another length gives storage of LEN bytes too (DESIGN CHOICE, log 13). -/
def HostBuffer.storage (d : HostBuffer) (len : Nat) : Memory := d.bytes.filter fun c => decide (c.1 < len)

/-- The host's buffers after a command: on OK of a buffer command the destination is the LEN bytes of DST, of SRC's length
whatever it was before (20_memory.md R34, 41_byte_transform.md R107); otherwise no buffer changes (20_memory.md R45). -/
def commitBuffers (buffers : List HostBuffer) (dstId len : Nat) (t : State) : List HostBuffer :=
  if t.response = some .okBuffer then buffers.set dstId ⟨len, t.dst⟩ else buffers

/-- The host waits for the response: the block's step, its state put back. -/
def awaitResponse (finish : State → HostSide) (s : State) : Host.Outcome HostSide Fault Refusal :=
  match step s with
  | .next t => .next (finish t)
  | .fault f => .fault f
  | .refused r => .refused r

/-- The host binds the buffers, issues the command and receives the response (R132). SRC and DST are never one buffer:
that is refused (R134), as is a buffer the host does not have. LEN is the length of SRC (10_state.md R25). -/
def HostSide.issueCommand (h : HostSide) (c : HostCommand) : Host.Outcome HostSide Fault Refusal :=
  match c.ports with
  | none => awaitResponse (fun t => { h with block := t }) ((h.block.bindBuffers 0 [] []).issue c.desc c.a)
  | some (srcId, dstId) =>
    if srcId = dstId then .refused .aliasedBuffers
    else
      match h.buffers[srcId]?, h.buffers[dstId]? with
      | some b, some d =>
        awaitResponse (fun t => { block := t, buffers := commitBuffers h.buffers dstId b.len t })
          ((h.block.bindBuffers b.len b.bytes (d.storage b.len)).issue c.desc c.a)
      | _, _ => .refused .noSuchBuffer

/-- A program of the host: its commands one after another, whatever the responses (95_test_vectors.md part 3). -/
def HostSide.runProgram (h : HostSide) : List HostCommand → Host.Outcome HostSide Fault Refusal
  | [] => .next h
  | c :: rest =>
    match h.issueCommand c with
    | .next h' => h'.runProgram rest
    | .fault f => .fault f
    | .refused r => .refused r

/-- The stages of a driver run: a stage that does not end OK stops the run and the next is not issued (30_encoding.md
R66, U12). -/
def HostSide.runStages (h : HostSide) : List HostCommand → Host.Outcome HostSide Fault Refusal
  | [] => .next h
  | c :: rest =>
    match h.issueCommand c with
    | .next h' => if h'.block.response = some .okBuffer then h'.runStages rest else .next h'
    | .fault f => .fault f
    | .refused r => .refused r

/-- `DECV.P v`: `DEC.P VT(v,P).axb, VT(v,P).dxor`, the omitted field 0 (R62, R64). -/
def expandDecv (vt : VariantTable) (p : Plane) (v : Variant) : Instr :=
  Instr.ofFields .dec p (vt v p).axb (vt v p).dxor 0#8

/-- `ENCV.P v`: `ENC.P VT(v,P).axb, VT(v,P).dxor, VT(v,P).hdr` (R65). -/
def expandEncv (vt : VariantTable) (p : Plane) (v : Variant) : Instr :=
  Instr.ofFields .enc p (vt v p).axb (vt v p).dxor (vt v p).hdr

/-- The block commands a pseudo-instruction stands for (R64 to R66). -/
def expandPseudo (vt : VariantTable) : Pseudo → List Instr
  | .decv p v => [expandDecv vt p v]
  | .encv p v => [expandEncv vt p v]
  | .recrypt p vin vout => (vin.map (expandDecv vt p)).toList ++ (vout.map (expandEncv vt p)).toList

/-- Binds the expansion's commands to the input, the intermediate buffer and the output: one command goes from input to
output, two go through the intermediate buffer (R66, R135). -/
def stageCommands (input temp output : Nat) : List Instr → List HostCommand
  | [i, k] => [⟨encode i, 0, some (input, temp)⟩, ⟨encode k, 0, some (temp, output)⟩]
  | is => is.map fun i => ⟨encode i, 0, some (input, output)⟩

/-- The host copies one buffer to another, with no block command (R66, last case): the output is then the input, its
length included, and the input is unchanged. No command runs, so R134 does not reach it and the two may be one buffer. -/
def HostSide.copyBuffer (h : HostSide) (input output : Nat) : Host.Outcome HostSide Fault Refusal :=
  match h.buffers[input]?, h.buffers[output]? with
  | some b, some _ => .next { h with buffers := h.buffers.set output b }
  | _, _ => .refused .noSuchBuffer

/-- A pseudo-instruction run by the host (R64 to R66). That the distinctness of the intermediate buffer (R135) is checked
stage by stage, so that two stages with the intermediate buffer equal to the output end with the first stage's status where
that is not OK and are refused only where the second is issued, is the model's choice (DESIGN CHOICE, log 13). -/
def HostSide.runPseudo (h : HostSide) (vt : VariantTable) (q : Pseudo) (input temp output : Nat) :
    Host.Outcome HostSide Fault Refusal :=
  match expandPseudo vt q with
  | [] => h.copyBuffer input output
  | is => h.runStages (stageCommands input temp output is)

end Sys2Proof.Machine
end

