-- ==== Sys2Proof/Machine/Assembler.lean ====
section
/-! DEFINITION. The host's assembler: a source line to a descriptor and an operand A, or to a pseudo-instruction
(30_encoding.md R62, R63, R67). -/

namespace Sys2Proof.Machine

/-- Why a line is no line. -/
inductive AsmError
  /-- Not a mnemonic of R57 or R64 to R66 with its operands. -/
  | malformedLine
  /-- An operand that is no hexadecimal or decimal literal. -/
  | malformedOperand
  /-- An operand out of its range: "an assembly error. It is never truncated" (R62). -/
  | operandOutOfRange
  /-- An unknown variant name, or a pseudo-instruction's plane suffix other than TX or BG: CONFIG_ERROR on the host,
  before any block command is issued (R67). A missing suffix counts as such (DESIGN CHOICE, log 14). -/
  | configError
deriving DecidableEq, Repr

/-- The command of a line whose operands are in range (R62); omitted fields are 0. -/
def lineInstr : AsmLine → Instr
  | .net p axb _ => Instr.ofFields .net p (BitVec.ofNat 20 axb) 0#8 0#8
  | .dec p axb dxor => Instr.ofFields .dec p (BitVec.ofNat 20 axb) (BitVec.ofNat 8 dxor) 0#8
  | .enc p axb dxor hdr => Instr.ofFields .enc p (BitVec.ofNat 20 axb) (BitVec.ofNat 8 dxor) (BitVec.ofNat 8 hdr)

/-- The address operand of a line; commands that take none leave A at 0. -/
def lineOperandA : AsmLine → Nat
  | .net _ _ a => a
  | .dec .. => 0
  | .enc .. => 0

/-- The assembler: DESC by R53 and A, for addresses of `aw` bits (R62). -/
def assemble (aw : Nat) (l : AsmLine) : Except AsmError (Word × Nat) :=
  if AsmLine.wf aw l then .ok (encode (lineInstr l), lineOperandA l) else .error .operandOutOfRange

/-! ### Reading a line -/

/-- The value of a hexadecimal digit. -/
def hexDigit (c : Char) : Option Nat :=
  if c.isDigit then some (c.toNat - '0'.toNat)
  else if 'a' ≤ c ∧ c ≤ 'f' then some (c.toNat - 'a'.toNat + 10)
  else if 'A' ≤ c ∧ c ≤ 'F' then some (c.toNat - 'A'.toNat + 10)
  else none

/-- The value of a decimal digit. -/
def decDigit (c : Char) : Option Nat := if c.isDigit then some (c.toNat - '0'.toNat) else none

/-- Digits in a base, most significant first, on top of what has been read. -/
def readDigits (base : Nat) (digit : Char → Option Nat) : List Char → Nat → Option Nat
  | [], acc => some acc
  | c :: cs, acc =>
    match digit c with
    | some d => readDigits base digit cs (acc * base + d)
    | none => none

/-- A literal, hexadecimal `0x...` or decimal (R62). -/
def readLiteral : List Char → Option Nat
  | [] => none
  | '0' :: 'x' :: [] => none
  | '0' :: 'x' :: cs => readDigits 16 hexDigit cs 0
  | cs => readDigits 10 decDigit cs 0

/-- Space and tab. -/
def isSpace (c : Char) : Bool := c == ' ' || c == '\t'

/-- A text without the space around it. -/
def trimSpace (cs : List Char) : List Char :=
  ((cs.dropWhile isSpace).reverse.dropWhile isSpace).reverse

/-- Splits at every comma. -/
def splitCommas : List Char → List (List Char)
  | [] => [[]]
  | c :: cs =>
    if c == ',' then [] :: splitCommas cs
    else
      match splitCommas cs with
      | [] => [[c]]
      | x :: xs => (c :: x) :: xs

/-- The operands after the mnemonic: none, or texts separated by commas (R62). -/
def readOperands (cs : List Char) : List (List Char) :=
  match trimSpace cs with
  | [] => []
  | body => (splitCommas body).map trimSpace

/-- A plane suffix. -/
def readPlane (cs : List Char) : Option Plane :=
  if cs = "TX".toList then some .tx else if cs = "BG".toList then some .bg else none

/-- A variant name (00_scope.md R2, 30_encoding.md R67). -/
def readVariant (cs : List Char) : Option Variant :=
  if cs = "SS91022-10".toList then some .ss91022_10
  else if cs = "SS92046-01".toList then some .ss92046_01
  else if cs = "SS92047-01".toList then some .ss92047_01
  else if cs = "SS92048-01".toList then some .ss92048_01
  else none

/-- An operand of RECRYPT: a variant name, or `-` for none (R66); `none` outside is an unknown name. -/
def readStage (cs : List Char) : Option (Option Variant) :=
  if cs = ['-'] then some none else (readVariant cs).map some

/-- A command line: its mnemonic's operation and plane, and its operands in the order of R62. That a line with an operand
that is no literal is a malformedOperand also where the number of operands is wrong (`DEC.TX zz`) is the model's choice
(DESIGN CHOICE, log 14). -/
def readCommand (o : Op) (p : Plane) (ops : List (List Char)) : Except AsmError AsmLine :=
  match o, ops.map readLiteral with
  | .net, [some axb, some a] => .ok (.net p axb a)
  | .dec, [some axb, some dxor] => .ok (.dec p axb dxor)
  | .enc, [some axb, some dxor, some hdr] => .ok (.enc p axb dxor hdr)
  | _, vs => .error (if vs.contains none then .malformedOperand else .malformedLine)

/-- DECV or ENCV with its variant (R64, R65, R67). -/
def readVariantPseudo (mk : Variant → Pseudo) : List (List Char) → Except AsmError Pseudo
  | [v] =>
    match readVariant v with
    | some v => .ok (mk v)
    | none => .error .configError
  | _ => .error .malformedLine

/-- RECRYPT with its two operands (R66, R67). -/
def readRecrypt (p : Plane) : List (List Char) → Except AsmError Pseudo
  | [vin, vout] =>
    match readStage vin, readStage vout with
    | some vin, some vout => .ok (.recrypt p vin vout)
    | _, _ => .error .configError
  | _ => .error .malformedLine

/-- A line of source: one command or pseudo-instruction, a `;` starts a comment (R62). That a pseudo-instruction with no
plane suffix at all (`DECV SS91022-10`) is a configError like one with a wrong suffix, and not a malformedLine, is the
model's choice (DESIGN CHOICE, log 14; R67 speaks of a suffix other than TX or BG). -/
def readLine (line : List Char) : Except AsmError SourceLine :=
  let body := trimSpace (line.takeWhile (· != ';'))
  let mnemonic := body.takeWhile (fun c => !isSpace c)
  let ops := readOperands (body.dropWhile (fun c => !isSpace c))
  let base := mnemonic.takeWhile (· != '.')
  let plane := readPlane ((mnemonic.dropWhile (· != '.')).drop 1)
  let command (o : Op) : Except AsmError SourceLine :=
    match plane with
    | some p => (readCommand o p ops).map .command
    | none => .error .malformedLine
  let pseudo (read : Plane → Except AsmError Pseudo) : Except AsmError SourceLine :=
    match plane with
    | some p => (read p).map .pseudo
    | none => .error .configError
  if body = [] then .ok .blank
  else if base = "NET".toList then command .net
  else if base = "DEC".toList then command .dec
  else if base = "ENC".toList then command .enc
  else if base = "DECV".toList then pseudo fun p => readVariantPseudo (.decv p) ops
  else if base = "ENCV".toList then pseudo fun p => readVariantPseudo (.encv p) ops
  else if base = "RECRYPT".toList then pseudo fun p => readRecrypt p ops
  else .error .malformedLine

/-- A whole line: its block commands with their A, in order, for a table and an address width. RECRYPT with no variant
has none. -/
def assembleLine (aw : Nat) (vt : VariantTable) (line : List Char) : Except AsmError (List (Word × Nat)) :=
  match readLine line with
  | .error e => .error e
  | .ok .blank => .ok []
  | .ok (.command l) => (assemble aw l).map fun w => [w]
  | .ok (.pseudo q) => .ok ((expandPseudo vt q).map fun i => (encode i, 0))

/-- The assembler of the block at hand: its own address width and variant table. -/
def assembleHere (line : List Char) : Except AsmError (List (Word × Nat)) :=
  assembleLine Config.aw Config.variantTable line

end Sys2Proof.Machine
end

