-- ==== Sys2Proof/Machine/NetworkForms.lean ====
section
/-! DEFINITION. The network's derived forms: a bit permutation followed by a prefix XOR within two groups, and the inverse
network (40_address_network.md R79, R80). No command uses them; they say the same network another way. -/

namespace Sys2Proof.Machine

/-- The permutation table of R79, read from output bit 0 up: entry `k` is the bit of `w` that is `p_k`. -/
def permTable : Plane → List Nat
  | .tx => [5, 1, 2, 15, 4, 12, 6, 16, 8, 9, 10, 11, 0, 13, 14, 3, 7, 17, 18]
  | .bg => [0, 11, 16, 18, 4, 5, 6, 7, 3, 9, 10, 1, 12, 13, 14, 15, 2, 17, 8, 19]

/-- `p_k`, a bit of the permuted working address (R79). -/
def permBit (p : Plane) (w k : Nat) : Bool := w.testBit ((permTable p).getD k 0)

/-- `lo(k)`: the bottom of `k`'s group, 0 or 10 (R79). -/
def groupLow (k : Nat) : Nat := if k ≤ 9 then 0 else 10

/-- `p_lo(k) ^ … ^ p_k`, the prefix XOR of bit `k`'s group (R79). -/
def prefixXor (f : Nat → Bool) (k : Nat) : Bool :=
  (List.range' (groupLow k) (k + 1 - groupLow k)).foldl (fun acc m => acc ^^ f m) false

/-- The network by its structure (R79). -/
def netByStructure (p : Plane) (w : Nat) : Nat :=
  Nat.ofBits fun k : Fin (netBits p) => prefixXor (permBit p w) k

/-- Undoing the prefix XOR: `p_k = j_k ^ j_(k-1)`, or `j_k` at the bottom of a group (R80 step 1). -/
def unprefixBit (j k : Nat) : Bool :=
  if k = groupLow k then j.testBit k else j.testBit k ^^ j.testBit (k - 1)

/-- The inverse network `NET_P^-1(j)`: `w_b = p_k` for the pairing (b, k) of R79 (R80 step 2). -/
def netInverse (p : Plane) (j : Nat) : Nat :=
  Nat.ofBits fun b : Fin (netBits p) => unprefixBit j ((permTable p).idxOf b.val)

/-- The logical address of a physical one (R80): for tx the preimage below 2^19, for bg the one in `j`'s block. -/
def addrMapInverse (p : Plane) (x : Addr20) (j : Nat) : Nat :=
  match p with
  | .tx => (netInverse .tx j ^^^ x.toNat) % 2 ^ 19
  | .bg => passHigh .bg j ||| (netInverse .bg j ^^^ x.toNat)

end Sys2Proof.Machine
end

