-- ==== Sys2Proof/Safety.lean ====
section
/-! DEFINITION. What a good state, a host that keeps its duties, and a successful command are. -/

namespace Sys2Proof.Machine

/-- The kinds of outcome of a command (60_exceptions.md R108, R110). A fault or a refusal is no success, so a claim of
success is refuted by it. -/
inductive OutcomeKind
  | success
  | fault
  | refusal
deriving DecidableEq, Repr

/-- The kind of a status (60_exceptions.md R110). -/
def Status.kind : Status → OutcomeKind
  | .ok => .success
  | .configError => .fault
  | .rangeFault => .fault
  | .collisionRefused => .refusal

/-- The command that has just ended succeeded. -/
def State.succeeded (s : State) : Bool :=
  match s.response with
  | some r => decide (r.status.kind = .success)
  | none => false

/-- The invariant of the machine between steps: both buffers are in canonical form and lie below LEN, no observer sees
BUSY = 1 (10_state.md R27), and no response has a value before its command ends (10_state.md R26). -/
def State.inv (s : State) : Bool :=
  Memory.wf s.src && Memory.within s.len s.src && Memory.wf s.dst && Memory.within s.len s.dst &&
    !s.busy && !(s.issued && s.response.isSome)

/-- The host's duties on a block whose addresses have `aw` bits: A is an address, the buffers fit the address space, and
both have LEN bytes (10_state.md R24, 20_memory.md R34, 70_reset_and_hazards.md R132). That SRC and DST are distinct
storage needs no saying: they are two memories (R134). -/
def State.hostDuties (aw : Nat) (s : State) : Bool :=
  decide (s.a < 2 ^ aw) && decide (s.len ≤ 2 ^ aw) && Memory.within s.len s.src && Memory.within s.len s.dst

end Sys2Proof.Machine
end

