-- ==== Sys2Proof/Certificates/Slice0/Obligations.lean ====
section
/-! DEFINITION. The statements for the provers. -/

open Sys2Proof Sys2Proof.Machine

/-! ### Words the statements share -/

/-- `InRange(P, X, LEN)` with `X = AXB ^ PLANE_CONST[P]` (41_byte_transform.md R93). -/
def Sys2Proof.Claims.InRange (p : Plane) (axb : Addr20) (len : Nat) : Prop :=
  ∀ i < len, addrMap p (axb ^^^ planeConst p) i < len

/-- `Injective(P, X, LEN)` (41_byte_transform.md R94). -/
def Sys2Proof.Claims.Injective (p : Plane) (axb : Addr20) (len : Nat) : Prop :=
  ∀ i₁ < len, ∀ i₂ < len, addrMap p (axb ^^^ planeConst p) i₁ = addrMap p (axb ^^^ planeConst p) i₂ → i₁ = i₂

/-- What no command changes: the host's ports but for DST, and the model's own counter. -/
def Sys2Proof.Claims.PortsKept (s t : State) : Prop :=
  t.desc = s.desc ∧ t.a = s.a ∧ t.issued = s.issued ∧ t.len = s.len ∧ t.src = s.src ∧ t.freeTick = s.freeTick

/-- `t` is `s` after an OK decrypt: every DST byte below LEN by the closed form of R98, everything else as before but
for the response and BUSY. -/
def Sys2Proof.Claims.Decrypted (p : Plane) (axb : Addr20) (dxor : Byte) (s t : State) : Prop :=
  t.response = some .okBuffer ∧ t.busy = false ∧ Claims.PortsKept s t ∧
  (∀ i < s.len, Memory.read t.dst i =
    Memory.read s.src (addrMap p (axb ^^^ planeConst p) i) ^^^ BitVec.ofNat 8 (i % 256) ^^^ dxor) ∧
  ∀ k, s.len ≤ k → Memory.read t.dst k = Memory.read s.dst k

/-- `t` is `s` after an OK encrypt: the DST byte at the position of every logical address below LEN by the closed form
of R98, everything else as before but for the response and BUSY. -/
def Sys2Proof.Claims.Encrypted (p : Plane) (axb : Addr20) (dxor hdr : Byte) (s t : State) : Prop :=
  t.response = some .okBuffer ∧ t.busy = false ∧ Claims.PortsKept s t ∧
  (∀ i < s.len, Memory.read t.dst (addrMap p (axb ^^^ planeConst p) i) =
    (if i < hdrLen p then hdr else Memory.read s.src i) ^^^ BitVec.ofNat 8 (i % 256) ^^^ dxor) ∧
  ∀ k, s.len ≤ k → Memory.read t.dst k = Memory.read s.dst k

/-- The command ends with a status and changes nothing else but BUSY. -/
def Sys2Proof.Claims.EndsWith (i : Instr) (s : State) (r : Response) : Prop :=
  exec i s = .next { s with response := some r, busy := false }

/-! ### Encoding -/

/-- R63's lines and V-C's illegal words, written out. -/
def Obligations.SpecWordsDecodeToTheirCommands : Prop :=
  decode 0x0000000000000000#64 = .ok (.netTx 0x00000#20 0x00#8 0x00#8) ∧
  decode 0x0000000000000001#64 = .ok (.netBg 0x00000#20 0x00#8 0x00#8) ∧
  decode 0x0000000351234502#64 = .ok (.decTx 0x12345#20 0x35#8 0x00#8) ∧
  decode 0x00000005a1234503#64 = .ok (.decBg 0x12345#20 0x5a#8 0x00#8) ∧
  decode 0x00000aa350000004#64 = .ok (.encTx 0x00000#20 0x35#8 0xaa#8) ∧
  decode 0x00000fffffffff05#64 = .ok (.encBg 0xfffff#20 0xff#8 0xff#8) ∧
  decode 0x0000000000000006#64 = .error .reservedOp ∧
  decode 0x0000000000000080#64 = .error .reservedCmdBits ∧
  decode 0x0000100000000002#64 = .error .reservedHighBits

/-- No field is dropped: every command, with every value of every field, is read back from its word. -/
def Obligations.DecodeOfEncodeIsTheCommand : Prop :=
  ∀ i : Instr, decode (encode i) = .ok i

/-- Every legal word has one meaning: it is the word of the command it decodes to. -/
def Obligations.EncodeOfDecodeIsTheDescriptor : Prop :=
  ∀ (d : Word) (i : Instr), decode d = .ok i → encode i = d

/-- R53's equation, and each field at its bits. -/
def Obligations.DescriptorIsPackedByTheEquation : Prop :=
  ∀ i : Instr,
    (encode i).toNat =
      i.cmd.toNat ||| (i.axb.toNat <<< 8) ||| (i.dxor.toNat <<< 28) ||| (i.hdr.toNat <<< 36) ∧
    (encode i).toNat % 2 ^ 8 = i.cmd.toNat ∧
    (encode i).toNat / 2 ^ 8 % 2 ^ 20 = i.axb.toNat ∧
    (encode i).toNat / 2 ^ 28 % 2 ^ 8 = i.dxor.toNat ∧
    (encode i).toNat / 2 ^ 36 % 2 ^ 8 = i.hdr.toNat ∧
    (encode i).toNat / 2 ^ 44 = 0

/-- R57 and R59, R60: a word is a command exactly when its CMD byte is 0 to 5 and its high bits are 0, and then OP and
PLANE are its bits; every other word is illegal. -/
def Obligations.DecoderAcceptsExactlyTheSixCommands : Prop :=
  ∀ d : Word,
    ((∃ i, decode d = .ok i) ↔ d.toNat % 2 ^ 8 ≤ 5 ∧ d.toNat / 2 ^ 44 = 0) ∧
    ((∃ e, decode d = .error e) ↔
      d.toNat / 2 ^ 3 % 2 ^ 5 ≠ 0 ∨ d.toNat / 2 % 4 = 3 ∨ d.toNat / 2 ^ 44 ≠ 0) ∧
    ∀ i, decode d = .ok i → i.cmd.toNat = d.toNat % 2 ^ 8

/-! ### The step, statuses and reset -/

/-- A step at an issued legal descriptor is `exec` of the decoded command on the accepted state: the valid line taken,
BUSY 1, no response yet, everything else as the host left it. -/
def Obligations.StepRunsTheDecodedCommand : Prop :=
  ∀ (s : State) (i : Instr), s.issued = true → decode s.desc = .ok i →
    step s = exec i { s with issued := false, busy := true, response := none }

/-- With no command issued the block executes nothing (R130); that the response of the last command is then gone is the
model's reading of R26 (log 10). -/
def Obligations.IdleStepExecutesNothing : Prop :=
  ∀ s : State, s.issued = false → step s = .next { s with busy := false, response := none }

/-- R59: whatever the ports hold, a reserved descriptor ends with CONFIG_ERROR and no other effect. -/
def Obligations.ReservedDescriptorEndsWithConfigError : Prop :=
  ∀ s : State, s.issued = true →
    (s.desc.toNat / 2 ^ 3 % 2 ^ 5 ≠ 0 ∨ s.desc.toNat / 2 % 4 = 3 ∨ s.desc.toNat / 2 ^ 44 ≠ 0) →
    step s = .next { s with issued := false, busy := false, response := some .configError }

/-- From every state a step answers a next state, and it has a response exactly if a command was issued. R140 says that
every command ends and R26 that its response then has a value. Two clauses are the model's choice and no rule's: that a
non-OK command is a next state and no fault or refusal of the step (log 1, where R108 lets a model treat it otherwise), and
that an idle step leaves no response (log 10). -/
def Obligations.EveryStepAnswersANextState : Prop :=
  ∀ s : State, ∃ t, step s = .next t ∧ t.response.isSome = s.issued

/-- R27, R117: after a step, whatever its outcome, BUSY is 0, no command is pending, and a command issued then is run. -/
def Obligations.BlockIsIdleAfterEveryStep : Prop :=
  ∀ s t : State, step s = .next t →
    t.busy = false ∧ t.issued = false ∧
    ∀ (d : Word) (a : Nat), ∃ u r, step (t.issue d a) = .next u ∧ u.response = some r

/-- No step writes SRC (R46), nor DESC, A or LEN, which the host alone writes (R23, R24, R34). The last conjunct, on
`freeTick`, is about the model's own counter (log 6) and no rule's. -/
def Obligations.StepWritesNoHostPort : Prop :=
  ∀ s t : State, step s = .next t →
    t.src = s.src ∧ t.desc = s.desc ∧ t.a = s.a ∧ t.len = s.len ∧ t.freeTick = s.freeTick

/-- R45, R116: a command that ends with a status other than OK changes nothing but what it answers. -/
def Obligations.NonOkCommandChangesOnlyItsStatus : Prop :=
  ∀ (s t : State) (r : Response), s.issued = true → step s = .next t → t.response = some r → r.status ≠ .ok →
    t = { s with issued := false, busy := false, response := some r }

/-- R115: the status of an issued command is the first cause that applies, in the order CONFIG_ERROR, RANGE_FAULT,
COLLISION_REFUSED, and OK when none does. -/
def Obligations.StatusIsTheFirstCauseThatApplies : Prop :=
  ∀ s : State, s.issued = true → ∃ t r, step s = .next t ∧ t.response = some r ∧
    (∀ e, decode s.desc = .error e → r.status = .configError) ∧
    ∀ i, decode s.desc = .ok i →
      (i.op = .net → r.status = .ok) ∧
      (i.op ≠ .net → ¬Claims.InRange i.plane i.axb s.len → r.status = .rangeFault) ∧
      (i.op = .dec → Claims.InRange i.plane i.axb s.len → r.status = .ok) ∧
      (i.op = .enc → Claims.InRange i.plane i.axb s.len →
        (¬Claims.Injective i.plane i.axb s.len → r.status = .collisionRefused) ∧
        (Claims.Injective i.plane i.axb s.len → r.status = .ok))

/-- R110: the codes and kinds of the statuses, and which command can end with which: no decoded command with
CONFIG_ERROR, no NET with RANGE_FAULT, none but ENC.TX with COLLISION_REFUSED. -/
def Obligations.StatusCodesAndWhoRaisesThem : Prop :=
  (Status.ok.code = 0#2 ∧ Status.configError.code = 1#2 ∧ Status.rangeFault.code = 2#2 ∧
    Status.collisionRefused.code = 3#2) ∧
  (∀ st : Status, (st.kind = .success ↔ st = .ok) ∧ (st.kind = .refusal ↔ st = .collisionRefused)) ∧
  ∀ (i : Instr) (s t : State) (r : Response), exec i s = .next t → t.response = some r →
    r.status ≠ .configError ∧
    (r.status = .rangeFault → i.op ≠ .net) ∧
    (r.status = .collisionRefused → i.op = .enc ∧ i.plane = .tx)

/-- R37, R44: a step changes DST only if it runs a DEC or ENC command that ends with OK. -/
def Obligations.DstChangesOnlyByAnOkBufferCommand : Prop :=
  ∀ s t : State, step s = .next t → t.dst ≠ s.dst →
    s.issued = true ∧ t.response = some .okBuffer ∧ ∃ i, decode s.desc = .ok i ∧ i.op ≠ .net

/-- At power-on and after a reset in any state the block is idle, with no command in flight and no response (R128). The two
clauses on `inFlight` rest on the model's choices: that an issued command counts as in flight while BUSY is 0, so that a reset
drops it (logs 6 and 18), and that the valid line is 0 at power-on (log 4). -/
def Obligations.ResetLeavesTheBlockIdle : Prop :=
  (State.reset.busy = false ∧ State.reset.inFlight = false ∧ State.reset.response = none) ∧
  ∀ s : State, s.assertReset.busy = false ∧ s.assertReset.inFlight = false ∧ s.assertReset.response = none

/-- A reset while a command is in flight leaves SRC as it is and gives every byte of DST any value (R131). The rest is the
model's choice and no rule's (log 6): that LEN, DESC and A are kept, that with nothing in flight SRC and DST are kept (R31
leaves them unspecified), that an issued command counts as in flight, and that the free byte is the one of that reset and
position. -/
def Obligations.ResetInMidCommandFreesOnlyDst : Prop :=
  ∀ s : State,
    (s.assertReset.src = s.src ∧ s.assertReset.len = s.len ∧ s.assertReset.desc = s.desc ∧ s.assertReset.a = s.a) ∧
    (s.inFlight = true → ∀ i < s.len, Memory.read s.assertReset.dst i = Config.freeByte s.freeTick i) ∧
    (s.inFlight = false → s.assertReset.dst = s.dst)

/-- The invariant holds at reset. -/
def Obligations.InvariantHoldsAtReset : Prop :=
  State.reset.inv = true

/-- Every step keeps the invariant: buffers canonical and below LEN, BUSY 0, no response before the command ends. -/
def Obligations.StepKeepsTheInvariant : Prop :=
  ∀ s t : State, s.inv = true → step s = .next t → t.inv = true

/-- Issuing a command, storing the pipeline's word and reset at any time keep the invariant too, and so does binding
buffers that are canonical and below their length. An issue or a bind while a command waits is taken by the model's choice
(log 18). -/
def Obligations.HostEventsKeepTheInvariant : Prop :=
  ∀ s : State, s.inv = true →
    (∀ d a, (s.issue d a).inv = true) ∧
    (∀ nbits w, (s.withFetchWord nbits w).inv = true) ∧
    s.assertReset.inv = true ∧
    ∀ len src dst, Memory.wf src = true → Memory.wf dst = true → Memory.within len src = true →
      Memory.within len dst = true → (s.bindBuffers len src dst).inv = true

/-! ### The address permutation network -/

/-- R18, R19, V-A1: the image of a single bit is the mask paired with it, every network bit is a source bit exactly
once, and every mask has the network's bits. -/
def Obligations.SingleBitImagesAreTheMasks : Prop :=
  ∀ p : Plane,
    (∀ e ∈ netTable p, net p (2 ^ e.1) = e.2 ∧ e.2 < 2 ^ netBits p) ∧
    ((netTable p).map Prod.fst).Perm (List.range (netBits p))

/-- R76. -/
def Obligations.TableOrderDoesNotAffectTheNetwork : Prop :=
  ∀ (p : Plane) (table : List (Nat × Nat)), table.Perm (netTable p) → ∀ w, netOf table w = net p w

/-- R75: the map of each plane; the `|` of bg equals `^`. -/
def Obligations.AddressMapIsPassThroughAndNetwork : Prop :=
  ∀ (x : Addr20) (i : Nat),
    addrMap .tx x i = net .tx (i ^^^ x.toNat) ∧
    addrMap .bg x i = ((i / 2 ^ 20 * 2 ^ 20) ||| net .bg (i ^^^ x.toNat)) ∧
    addrMap .bg x i = (i / 2 ^ 20 * 2 ^ 20) ^^^ net .bg (i ^^^ x.toNat)

/-- R77. -/
def Obligations.AddressMapRanges : Prop :=
  ∀ (x : Addr20) (i : Nat),
    addrMap .tx x i < 2 ^ 19 ∧
    addrMap .tx x i = net .tx ((i ^^^ x.toNat) % 2 ^ 19) ∧
    addrMap .tx x i = addrMap .tx x (i % 2 ^ 19) ∧
    addrMap .bg x i >>> 20 = i >>> 20 ∧
    addrMap .bg x i % 2 ^ 20 = net .bg ((i ^^^ x.toNat) % 2 ^ 20)

/-- R81. -/
def Obligations.NetworkIsLinear : Prop :=
  ∀ p : Plane,
    (∀ a b, net p (a ^^^ b) = net p a ^^^ net p b) ∧ net p 0 = 0 ∧
    (∀ (x : Addr20) (i k : Nat), k < 2 ^ netBits p → addrMap p x (i ^^^ k) = addrMap p x i ^^^ net p k) ∧
    ∀ x : Addr20, addrMap p x x.toNat = 0

/-- R78. -/
def Obligations.AddressMapIsABijection : Prop :=
  ∀ x : Addr20,
    Set.BijOn (addrMap .tx x) (Set.Iio (2 ^ 19)) (Set.Iio (2 ^ 19)) ∧
    (∀ k : Nat, Set.BijOn (addrMap .bg x) (Set.Ico (k * 2 ^ 20) ((k + 1) * 2 ^ 20))
      (Set.Ico (k * 2 ^ 20) ((k + 1) * 2 ^ 20))) ∧
    ∀ i, addrMap .tx x i = addrMap .tx x (i + 2 ^ 19)

/-- R79: each network is its bit permutation followed by the prefix XOR of two groups, bit by bit; and each table entry
`(b, m)` sends `w_b` to output bit `k`, where `m` sets bits `k` up to the top of `k`'s group. -/
def Obligations.NetworkIsPermutationThenPrefixXor : Prop :=
  ∀ p : Plane,
    (∀ w, net p w = netByStructure p w) ∧
    (∀ w k, k < netBits p → (net p w).testBit k = prefixXor (permBit p w) k) ∧
    ∀ e ∈ netTable p, ∃ k < netBits p, (permTable p)[k]? = some e.1 ∧
      e.2 = if k ≤ 9 then 2 ^ 10 - 2 ^ k else 2 ^ netBits p - 2 ^ k

/-- R80: the inverse network gives the working address back, and the inverse map the logical address. -/
def Obligations.InverseNetworkRecoversTheAddress : Prop :=
  (∀ p w, netInverse p (net p w) = w % 2 ^ netBits p) ∧
  (∀ p j, j < 2 ^ netBits p → net p (netInverse p j) = j) ∧
  (∀ (x : Addr20) (i : Nat), i < 2 ^ 19 → addrMapInverse .tx x (addrMap .tx x i) = i) ∧
  (∀ (x : Addr20) (j : Nat), j < 2 ^ 19 → addrMap .tx x (addrMapInverse .tx x j) = j) ∧
  (∀ (x : Addr20) (i : Nat), addrMapInverse .bg x (addrMap .bg x i) = i) ∧
  ∀ (x : Addr20) (j : Nat), addrMap .bg x (addrMapInverse .bg x j) = j

/-! ### The address queries -/

/-- R82: NET.TX completes in every state and changes nothing but the response and BUSY. -/
def Obligations.NetTxAnswersThePhysicalAddress : Prop :=
  ∀ (s : State) (axb : Addr20) (dxor hdr : Byte),
    exec (.netTx axb dxor hdr) s =
      .next { s with response := some (.okAddress (net .tx (s.a ^^^ (axb ^^^ 0x1005d#20).toNat))), busy := false }

/-- R83: NET.BG completes in every state and changes nothing but the response and BUSY. -/
def Obligations.NetBgAnswersThePhysicalAddress : Prop :=
  ∀ (s : State) (axb : Addr20) (dxor hdr : Byte),
    exec (.netBg axb dxor hdr) s =
      .next { s with
        response := some (.okAddress ((s.a / 2 ^ 20 * 2 ^ 20) ||| net .bg (s.a ^^^ (axb ^^^ 0xc1c5b#20).toNat))),
        busy := false }

/-- The corner cases of R82 and R83: what A is asked, and what JOUT it gets. -/
def Obligations.AddressQueryCornerCases : Prop :=
  ∀ (s : State) (axb : Addr20) (dxor hdr : Byte),
    (s.a = (axb ^^^ 0x1005d#20).toNat → Claims.EndsWith (.netTx axb dxor hdr) s (.okAddress 0)) ∧
    (s.a = 0 → Claims.EndsWith (.netTx axb dxor hdr) s (.okAddress (net .tx (axb ^^^ 0x1005d#20).toNat))) ∧
    Claims.EndsWith (.netTx 0x1005d#20 dxor hdr) s (.okAddress (net .tx s.a)) ∧
    Claims.EndsWith (.netTx axb dxor hdr) s (.okAddress (net .tx ((s.a % 2 ^ 19) ^^^ (axb ^^^ 0x1005d#20).toNat))) ∧
    (∀ k, s.a = (axb ^^^ 0xc1c5b#20).toNat + k * 2 ^ 20 →
      Claims.EndsWith (.netBg axb dxor hdr) s (.okAddress (k * 2 ^ 20))) ∧
    (s.a = 0 → Claims.EndsWith (.netBg axb dxor hdr) s (.okAddress (net .bg (axb ^^^ 0xc1c5b#20).toNat)))

/-- R26, R83: for every address width of at least 20 bits, JOUT is an address when A is. -/
def Obligations.QueriedAddressHasTheAddressWidth : Prop :=
  ∀ (aw : Nat) (s : State) (axb : Addr20) (dxor hdr : Byte), 20 ≤ aw → s.a < 2 ^ aw →
    (∃ j < 2 ^ aw, Claims.EndsWith (.netTx axb dxor hdr) s (.okAddress j)) ∧
    ∃ j < 2 ^ aw, Claims.EndsWith (.netBg axb dxor hdr) s (.okAddress j)

/-- R56: NET ignores DXOR, HDR and the buffers, DEC ignores HDR, DEC and ENC ignore A: any value gives the same. -/
def Obligations.UnusedFieldsAreIgnored : Prop :=
  ∀ (s : State) (axb : Addr20) (dxor hdr dxor' hdr' : Byte) (a len : Nat) (src dst : Memory),
    (exec (.netTx axb dxor hdr) s = exec (.netTx axb dxor' hdr') s ∧
      exec (.netBg axb dxor hdr) s = exec (.netBg axb dxor' hdr') s ∧
      exec (.decTx axb dxor hdr) s = exec (.decTx axb dxor hdr') s ∧
      exec (.decBg axb dxor hdr) s = exec (.decBg axb dxor hdr') s) ∧
    (∀ i ∈ [Instr.netTx axb dxor hdr, .netBg axb dxor hdr],
      ∃ t, exec i s = .next t ∧ exec i (s.bindBuffers len src dst) = .next (t.bindBuffers len src dst)) ∧
    ∀ i ∈ [Instr.decTx axb dxor hdr, .decBg axb dxor hdr, .encTx axb dxor hdr, .encBg axb dxor hdr],
      ∃ t, exec i s = .next t ∧ exec i { s with a := a } = .next { t with a := a }

/-! ### The buffer commands -/

/-- R96, R98, R87: DEC.TX and DEC.BG complete on every buffer in range, with every byte by the closed form, the header
region like any other. -/
def Obligations.DecryptOfABufferInRange : Prop :=
  ∀ (s : State) (axb : Addr20) (dxor hdr : Byte),
    (Claims.InRange .tx axb s.len →
      ∃ t, exec (.decTx axb dxor hdr) s = .next t ∧ Claims.Decrypted .tx axb dxor s t) ∧
    (Claims.InRange .bg axb s.len →
      ∃ t, exec (.decBg axb dxor hdr) s = .next t ∧ Claims.Decrypted .bg axb dxor s t)

/-- R97, R98, R90, R103: ENC.TX completes on every buffer in range whose map is injective, ENC.BG on every buffer in
range, with every byte by the closed form and HDR in the header region of the logical addresses. -/
def Obligations.EncryptOfAnAdmittedBuffer : Prop :=
  ∀ (s : State) (axb : Addr20) (dxor hdr : Byte),
    (Claims.InRange .tx axb s.len → Claims.Injective .tx axb s.len →
      ∃ t, exec (.encTx axb dxor hdr) s = .next t ∧ Claims.Encrypted .tx axb dxor hdr s t) ∧
    (Claims.InRange .bg axb s.len →
      ∃ t, exec (.encBg axb dxor hdr) s = .next t ∧ Claims.Encrypted .bg axb dxor hdr s t)

/-- R93: a DEC or ENC whose map leaves the buffer ends with RANGE_FAULT and does nothing else. -/
def Obligations.BufferOutOfRangeEndsWithRangeFault : Prop :=
  ∀ (s : State) (axb : Addr20) (dxor hdr : Byte),
    (¬Claims.InRange .tx axb s.len →
      Claims.EndsWith (.decTx axb dxor hdr) s .rangeFault ∧ Claims.EndsWith (.encTx axb dxor hdr) s .rangeFault) ∧
    (¬Claims.InRange .bg axb s.len →
      Claims.EndsWith (.decBg axb dxor hdr) s .rangeFault ∧ Claims.EndsWith (.encBg axb dxor hdr) s .rangeFault)

/-- R94: ENC in range whose map is not injective is refused, and does nothing else; DEC does not check it; when both
checks hold the map is a bijection of the positions. -/
def Obligations.NonInjectiveEncryptIsRefused : Prop :=
  ∀ (s : State) (axb : Addr20) (dxor hdr : Byte) (p : Plane), Claims.InRange p axb s.len →
    (¬Claims.Injective p axb s.len →
      Claims.EndsWith (Instr.ofFields .enc p axb dxor hdr) s .collisionRefused ∧
      ∃ t, exec (Instr.ofFields .dec p axb dxor hdr) s = .next t ∧ t.response = some .okBuffer) ∧
    (Claims.Injective p axb s.len →
      Set.BijOn (addrMap p (axb ^^^ planeConst p)) (Set.Iio s.len) (Set.Iio s.len))

/-- R103: ENC.BG never ends with COLLISION_REFUSED; the bg map is injective on every range. -/
def Obligations.EncryptBgNeverCollides : Prop :=
  (∀ axb len, Claims.Injective .bg axb len) ∧
  ∀ (s : State) (axb : Addr20) (dxor hdr : Byte), ∃ t r,
    exec (.encBg axb dxor hdr) s = .next t ∧ t.response = some r ∧ r.status ≠ .collisionRefused

/-- R52, R99: the per-address steps of an admitted command give the same DST in every order. -/
def Obligations.StepOrderDoesNotAffectDst : Prop :=
  ∀ (s : State) (p : Plane) (axb : Addr20) (dxor hdr : Byte) (order : List Nat),
    Memory.wf s.dst = true → order.Perm (List.range s.len) → Claims.InRange p axb s.len →
    (∃ m, runSteps s.len (s.decStep p (axb ^^^ planeConst p) dxor) order s.dst = .ok m ∧
      exec (Instr.ofFields .dec p axb dxor hdr) s =
        .next { s with dst := m, response := some .okBuffer, busy := false }) ∧
    (Claims.Injective p axb s.len →
      ∃ m, runSteps s.len (s.encStep p (axb ^^^ planeConst p) dxor hdr) order s.dst = .ok m ∧
        exec (Instr.ofFields .enc p axb dxor hdr) s =
          .next { s with dst := m, response := some .okBuffer, busy := false })

/-- R28, R107: the response and, on OK, every byte of DST depend on the descriptor, A, LEN and the bytes of SRC alone,
not on DST, nor on anything an earlier command left. -/
def Obligations.ResponseDependsOnTheCommandAlone : Prop :=
  ∀ s s' t t' : State, s.issued = true → s'.issued = true → s'.desc = s.desc → s'.a = s.a → s'.len = s.len →
    (∀ k < s.len, Memory.read s'.src k = Memory.read s.src k) →
    step s = .next t → step s' = .next t' →
    t'.response = t.response ∧
    (t.response = some .okBuffer → ∀ k < s.len, Memory.read t'.dst k = Memory.read t.dst k)

/-- R90, R137: encrypt discards the plaintext of the header region: two sources that differ there alone give the same
ciphertext. -/
def Obligations.EncryptDiscardsTheHeaderPlaintext : Prop :=
  ∀ (s s' t t' : State) (p : Plane) (axb : Addr20) (dxor hdr : Byte), s'.len = s.len →
    (∀ k, hdrLen p ≤ k → Memory.read s'.src k = Memory.read s.src k) →
    exec (Instr.ofFields .enc p axb dxor hdr) s = .next t →
    exec (Instr.ofFields .enc p axb dxor hdr) s' = .next t' →
    t'.response = t.response ∧
    (t.response = some .okBuffer → ∀ k < s.len, Memory.read t'.dst k = Memory.read t.dst k)

/-! ### Admissible lengths -/

/-- R95: which lengths pass the checks. -/
def Obligations.AdmissibleLengths : Prop :=
  (∀ p axb, Claims.InRange p axb 0 ∧ Claims.Injective p axb 0) ∧
  (∀ axb : Addr20, (Claims.InRange .tx axb 1 ↔ axb.toNat % 2 ^ 19 = 0x1005d)) ∧
  (∀ axb len, 2 ≤ len → len ≤ 0x40000 → ¬Claims.InRange .tx axb len) ∧
  (∀ axb, Claims.InRange .tx axb (2 ^ 19)) ∧
  (∀ axb len, 2 ^ 19 < len → Claims.InRange .tx axb len ∧ ¬Claims.Injective .tx axb len) ∧
  (∀ axb len, len ≤ 2 ^ 19 → Claims.Injective .tx axb len) ∧
  (∀ axb k, Claims.InRange .bg axb (k * 2 ^ 20)) ∧
  (∀ (axb : Addr20) k, (Claims.InRange .bg axb (k * 2 ^ 20 + 1) ↔ axb = 0xc1c5b#20)) ∧
  (∀ axb k r, 2 ≤ r → r ≤ 0x80000 → ¬Claims.InRange .bg axb (k * 2 ^ 20 + r)) ∧
  ∀ axb len, Claims.Injective .bg axb len

/-- R100 to R103, `LEN = 0` gives `OK` with an empty DST: nothing but the response and BUSY changes. -/
def Obligations.EmptyBufferIsOk : Prop :=
  ∀ (s : State) (axb : Addr20) (dxor hdr : Byte), s.len = 0 →
    Claims.EndsWith (.decTx axb dxor hdr) s .okBuffer ∧ Claims.EndsWith (.decBg axb dxor hdr) s .okBuffer ∧
    Claims.EndsWith (.encTx axb dxor hdr) s .okBuffer ∧ Claims.EndsWith (.encBg axb dxor hdr) s .okBuffer

/-- R95, R100, R102: a tx image of `2^19` bytes is decrypted and encrypted for every AXB. -/
def Obligations.TxImageOfFullLengthCompletes : Prop :=
  ∀ (s : State) (axb : Addr20) (dxor hdr : Byte), s.len = 2 ^ 19 →
    (∃ t, exec (.decTx axb dxor hdr) s = .next t ∧ Claims.Decrypted .tx axb dxor s t) ∧
    ∃ t, exec (.encTx axb dxor hdr) s = .next t ∧ Claims.Encrypted .tx axb dxor hdr s t

/-- R95, R101, R103: a bg image of whole `2^20`-byte blocks is decrypted and encrypted for every AXB. -/
def Obligations.BgImageOfWholeBlocksCompletes : Prop :=
  ∀ (s : State) (axb : Addr20) (dxor hdr : Byte) (k : Nat), s.len = k * 2 ^ 20 →
    (∃ t, exec (.decBg axb dxor hdr) s = .next t ∧ Claims.Decrypted .bg axb dxor s t) ∧
    ∃ t, exec (.encBg axb dxor hdr) s = .next t ∧ Claims.Encrypted .bg axb dxor hdr s t

/-- R100, R102: beyond `2^19` bytes DEC.TX repeats itself with period `2^19`, and ENC.TX is refused. -/
def Obligations.TxImageBeyondTheNetwork : Prop :=
  ∀ (s : State) (axb : Addr20) (dxor hdr : Byte), 2 ^ 19 < s.len →
    (∃ t, exec (.decTx axb dxor hdr) s = .next t ∧ Claims.Decrypted .tx axb dxor s t ∧
      ∀ i, i + 2 ^ 19 < s.len → Memory.read t.dst i = Memory.read t.dst (i + 2 ^ 19)) ∧
    Claims.EndsWith (.encTx axb dxor hdr) s .collisionRefused

/-! ### Round trips -/

/-- R104: decrypt then encrypt at an admitted length reproduces the ciphertext at every physical position that is not
the image of a header address, and puts the header byte's cipher at those that are. -/
def Obligations.DecryptThenEncryptReproducesTheCiphertext : Prop :=
  ∀ (s : State) (p : Plane) (axb : Addr20) (dxor hdr hdr' : Byte) (spare : Memory),
    Claims.InRange p axb s.len → Claims.Injective p axb s.len →
    ∃ t u, exec (Instr.ofFields .dec p axb dxor hdr') s = .next t ∧ t.response = some .okBuffer ∧
      exec (Instr.ofFields .enc p axb dxor hdr) (t.bindBuffers s.len t.dst spare) = .next u ∧
      u.response = some .okBuffer ∧
      (∀ k < s.len, (∀ i < hdrLen p, addrMap p (axb ^^^ planeConst p) i ≠ k) →
        Memory.read u.dst k = Memory.read s.src k) ∧
      ∀ i < s.len, i < hdrLen p →
        Memory.read u.dst (addrMap p (axb ^^^ planeConst p) i) = hdr ^^^ BitVec.ofNat 8 (i % 256) ^^^ dxor

/-- R105: encrypt then decrypt at an admitted length reproduces the plaintext outside the header region, which reads
HDR. -/
def Obligations.EncryptThenDecryptReproducesThePlaintext : Prop :=
  ∀ (s : State) (p : Plane) (axb : Addr20) (dxor hdr hdr' : Byte) (spare : Memory),
    Claims.InRange p axb s.len → Claims.Injective p axb s.len →
    ∃ t u, exec (Instr.ofFields .enc p axb dxor hdr) s = .next t ∧ t.response = some .okBuffer ∧
      exec (Instr.ofFields .dec p axb dxor hdr') (t.bindBuffers s.len t.dst spare) = .next u ∧
      u.response = some .okBuffer ∧
      ∀ i < s.len, Memory.read u.dst i = if i < hdrLen p then hdr else Memory.read s.src i

/-- R106: decrypt under one parameter set, encrypt and decrypt under another: the first plaintext outside the header
region, and the second set's HDR inside it. -/
def Obligations.CrossVariantReencryptionKeepsTheImage : Prop :=
  ∀ (s : State) (p : Plane) (va vb : VariantParams) (spare spare' : Memory),
    Claims.InRange p va.axb s.len → Claims.InRange p vb.axb s.len → Claims.Injective p vb.axb s.len →
    ∃ t u v, exec (Instr.ofFields .dec p va.axb va.dxor va.hdr) s = .next t ∧
      exec (Instr.ofFields .enc p vb.axb vb.dxor vb.hdr) (t.bindBuffers s.len t.dst spare) = .next u ∧
      exec (Instr.ofFields .dec p vb.axb vb.dxor vb.hdr) (u.bindBuffers s.len u.dst spare') = .next v ∧
      v.response = some .okBuffer ∧
      ∀ i < s.len, Memory.read v.dst i = if i < hdrLen p then vb.hdr else Memory.read t.dst i

/-! ### The host side -/

/-- R62: the assembler takes exactly the lines whose operands are in range, and the word it writes decodes to the
mnemonic's command with those operands, omitted fields 0. -/
def Obligations.AssembledLineDecodesToItsCommand : Prop :=
  ∀ (aw : Nat) (l : AsmLine),
    (AsmLine.wf aw l = false → assemble aw l = .error .operandOutOfRange) ∧
    (AsmLine.wf aw l = true → ∃ d i, assemble aw l = .ok (d, lineOperandA l) ∧ decode d = .ok i ∧
      match l with
      | .net p axb a => i.op = .net ∧ i.plane = p ∧ i.axb.toNat = axb ∧ i.dxor = 0#8 ∧ i.hdr = 0#8 ∧
          lineOperandA l = a
      | .dec p axb dxor => i.op = .dec ∧ i.plane = p ∧ i.axb.toNat = axb ∧ i.dxor.toNat = dxor ∧ i.hdr = 0#8
      | .enc p axb dxor hdr => i.op = .enc ∧ i.plane = p ∧ i.axb.toNat = axb ∧ i.dxor.toNat = dxor ∧
          i.hdr.toNat = hdr)

/-- R134: a command whose SRC and DST are one buffer is refused, whatever the buffer holds. That a NET or a
malformed descriptor is refused so too is the model's choice (log 13). -/
def Obligations.AliasedPortsAreRefused : Prop :=
  ∀ (h : HostSide) (d : Word) (a b : Nat), h.issueCommand ⟨d, a, some (b, b)⟩ = .refused .aliasedBuffers

/-- R66: RECRYPT with no variant copies the input to the output, with no block command, whatever length the output had and
also where it is the input itself. That these forms are taken is the model's choice (log 13). -/
def Obligations.RecryptWithoutVariantsCopies : Prop :=
  ∀ (h : HostSide) (vt : VariantTable) (p : Plane) (input temp output : Nat) (b d : HostBuffer),
    h.buffers[input]? = some b → h.buffers[output]? = some d →
    h.runPseudo vt (.recrypt p none none) input temp output =
      .next { h with buffers := h.buffers.set output b }

/-- R66, U12: when the first stage of a two-stage RECRYPT is out of range, the second is not issued: every buffer of the
host is as before, and the response is the first stage's. The driver's bindings, and that a run with the
intermediate buffer equal to the output ends so too and is not refused, are the model's choice (log 13), as is what happens
on a block with a command waiting (log 18). -/
def Obligations.RecryptStopsAfterAFailedFirstStage : Prop :=
  ∀ (h : HostSide) (vt : VariantTable) (p : Plane) (vin vout : Variant) (input temp output : Nat)
    (b d : HostBuffer),
    input ≠ temp → h.buffers[input]? = some b → h.buffers[temp]? = some d →
    ¬Claims.InRange p (vt vin p).axb b.len →
    ∃ h', h.runPseudo vt (.recrypt p (some vin) (some vout)) input temp output = .next h' ∧
      h'.buffers = h.buffers ∧ h'.block.response = some .rangeFault

/-- R66: a two-stage RECRYPT at an admitted length puts into the output the ciphertext, under the second variant, of the
input's plaintext under the first; the input is as before. The driver's bindings are log 13, a block with a command
waiting is log 18. -/
def Obligations.RecryptReencryptsTheInput : Prop :=
  ∀ (h : HostSide) (vt : VariantTable) (p : Plane) (vin vout : Variant) (input temp output : Nat)
    (b d e : HostBuffer),
    input ≠ temp → temp ≠ output → input ≠ output →
    h.buffers[input]? = some b → h.buffers[temp]? = some d → h.buffers[output]? = some e →
    Claims.InRange p (vt vin p).axb b.len → Claims.InRange p (vt vout p).axb b.len →
    Claims.Injective p (vt vout p).axb b.len →
    ∃ h' o, h.runPseudo vt (.recrypt p (some vin) (some vout)) input temp output = .next h' ∧
      h'.block.response = some .okBuffer ∧ h'.buffers[input]? = some b ∧ h'.buffers[output]? = some o ∧
      o.len = b.len ∧
      ∀ i < b.len, Memory.read o.bytes (addrMap p ((vt vout p).axb ^^^ planeConst p) i) =
        (if i < hdrLen p then (vt vout p).hdr
          else Memory.read b.bytes (addrMap p ((vt vin p).axb ^^^ planeConst p) i) ^^^ BitVec.ofNat 8 (i % 256) ^^^
            (vt vin p).dxor) ^^^ BitVec.ofNat 8 (i % 256) ^^^ (vt vout p).dxor

/-- The variant half of R67 for DECV and ENCV: a name that is none of the four variants is a CONFIG_ERROR of the host, and
the line gives no block command. How the text of a line is read is the model's choice (log 14): names in upper case only,
space and tab the only separators, so that a name in lower case is an unknown name. -/
def Obligations.UnknownVariantIsAConfigError : Prop :=
  ∀ (aw : Nat) (vt : VariantTable) (name : List Char),
    name ≠ [] → (∀ c ∈ name, c ≠ ';' ∧ c ≠ ',' ∧ isSpace c = false) →
    name ∉ ["SS91022-10".toList, "SS92046-01".toList, "SS92047-01".toList, "SS92048-01".toList] →
    ∀ head ∈ ["DECV.TX ".toList, "DECV.BG ".toList, "ENCV.TX ".toList, "ENCV.BG ".toList],
      assembleLine aw vt (head ++ name) = .error .configError

/-- The one-variant cases of R66, which are DECV and ENCV of R64 and R65: one stage from the input to the output, that puts
into the output the plaintext, or the ciphertext, of the input and leaves every other buffer as before; a length out of range
leaves every buffer as before. The driver's bindings are log 13, a block with a command waiting is
log 18. -/
def Obligations.RecryptWithOneVariantIsOneStage : Prop :=
  ∀ (h : HostSide) (vt : VariantTable) (p : Plane) (v : Variant) (input temp output : Nat) (b d : HostBuffer),
    input ≠ output → h.buffers[input]? = some b → h.buffers[output]? = some d →
    (Claims.InRange p (vt v p).axb b.len → ∀ q ∈ [Pseudo.decv p v, .recrypt p (some v) none],
      ∃ h' o, h.runPseudo vt q input temp output = .next h' ∧ h'.block.response = some .okBuffer ∧
        h'.buffers = h.buffers.set output o ∧ o.len = b.len ∧
        ∀ i < b.len, Memory.read o.bytes i =
          Memory.read b.bytes (addrMap p ((vt v p).axb ^^^ planeConst p) i) ^^^ BitVec.ofNat 8 (i % 256) ^^^
            (vt v p).dxor) ∧
    (Claims.InRange p (vt v p).axb b.len → Claims.Injective p (vt v p).axb b.len →
      ∀ q ∈ [Pseudo.encv p v, .recrypt p none (some v)],
      ∃ h' o, h.runPseudo vt q input temp output = .next h' ∧ h'.block.response = some .okBuffer ∧
        h'.buffers = h.buffers.set output o ∧ o.len = b.len ∧
        ∀ i < b.len, Memory.read o.bytes (addrMap p ((vt v p).axb ^^^ planeConst p) i) =
          (if i < hdrLen p then (vt v p).hdr else Memory.read b.bytes i) ^^^ BitVec.ofNat 8 (i % 256) ^^^
            (vt v p).dxor) ∧
    (¬Claims.InRange p (vt v p).axb b.len →
      ∀ q ∈ [Pseudo.decv p v, .encv p v, .recrypt p (some v) none, .recrypt p none (some v)],
      ∃ h', h.runPseudo vt q input temp output = .next h' ∧ h'.block.response = some .rangeFault ∧
        h'.buffers = h.buffers)

/-- The variant half of R67 for RECRYPT: if one of its two operands is neither `-` nor one of the four variants, the line is a
CONFIG_ERROR of the host and gives no block command, whatever the other operand is. How the text of a line is read is the
model's choice (log 14). -/
def Obligations.RecryptOfAnUnknownVariantIsAConfigError : Prop :=
  ∀ (aw : Nat) (vt : VariantTable) (vin vout : List Char),
    vin ≠ [] → vout ≠ [] → (∀ c ∈ vin ++ vout, c ≠ ';' ∧ c ≠ ',' ∧ isSpace c = false) →
    (∃ name ∈ [vin, vout], name ∉ ["-".toList, "SS91022-10".toList, "SS92046-01".toList, "SS92047-01".toList,
      "SS92048-01".toList]) →
    ∀ head ∈ ["RECRYPT.TX ".toList, "RECRYPT.BG ".toList],
      assembleLine aw vt (head ++ vin ++ ", ".toList ++ vout) = .error .configError

/-- The plane half of R67: a pseudo-instruction with a suffix other than TX or BG is a CONFIG_ERROR of the host and gives no
block command, whatever its operands are. How the text of a line is read, and that this error comes before one of the
operands, is the model's choice (log 14). -/
def Obligations.UnknownPlaneSuffixIsAConfigError : Prop :=
  ∀ (aw : Nat) (vt : VariantTable) (suffix operands : List Char),
    (∀ c ∈ suffix, c ≠ ';' ∧ isSpace c = false) → suffix ≠ "TX".toList → suffix ≠ "BG".toList →
    ∀ base ∈ ["DECV".toList, "ENCV".toList, "RECRYPT".toList],
      assembleLine aw vt (base ++ '.' :: suffix ++ ' ' :: operands) = .error .configError

/-- A command the host issues ends with a response, and changes at most the buffer bound to DST: on an OK buffer command that
buffer has SRC's length after it (R34, R107), and otherwise every buffer of the host is as before (R45). That a buffer of
another length serves as the storage of DST is the model's choice (log 13), as is what happens on a block with a command
waiting (log 18). -/
def Obligations.HostCommandWritesOnlyItsDestination : Prop :=
  ∀ (h h' : HostSide) (c : HostCommand), h.issueCommand c = .next h' →
    h'.block.response.isSome = true ∧
    (h'.block.response ≠ some .okBuffer → h'.buffers = h.buffers) ∧
    ∀ x y, c.ports = some (x, y) → x ≠ y ∧ ∃ b o, h.buffers[x]? = some b ∧
      (h'.block.response = some .okBuffer → o.len = b.len ∧ h'.buffers = h.buffers.set y o)
end

