-- ==== Sys2Proof/Laws/Memory.lean ====
section
/-! SUPPORT. Buffers: reading after writing, and the canonical form that every operation keeps. -/

namespace Sys2Proof.Machine

@[simp] theorem Memory.read_nil (a : Nat) : Memory.read [] a = Config.blankByte := rfl

theorem Memory.read_cons (c : Host.Cell) (m : Memory) (a : Nat) :
    Memory.read (c :: m) a = if a = c.1 then c.2 else Memory.read m a := rfl

/-- A position with no cell reads as the blank byte. -/
theorem Memory.read_of_forall_ne {m : Memory} {a : Nat} (h : ∀ c ∈ m, c.1 ≠ a) :
    Memory.read m a = Config.blankByte := by
  induction m with
  | nil => rfl
  | cons c m ih =>
    rw [Memory.read_cons, if_neg (Ne.symm (h c (by simp))), ih fun d hd => h d (by simp [hd])]

theorem Memory.read_filter_ne (m : Memory) (a b : Nat) :
    Memory.read (m.filter fun c => c.1 != a) b = if b = a then Config.blankByte else Memory.read m b := by
  induction m with
  | nil => simp
  | cons c m ih =>
    by_cases hc : c.1 = a
    · rw [List.filter_cons_of_neg (by simp [hc]), ih, Memory.read_cons]
      split_ifs with h1 h2
      · rfl
      · exact absurd (h2.trans hc) h1
      · rfl
    · rw [List.filter_cons_of_pos (by simp [hc]), Memory.read_cons, Memory.read_cons, ih]
      split_ifs with h1 h2 h3
      · exact absurd (h1.symm.trans h2) hc
      all_goals rfl

theorem Memory.mem_insertCell {m : Memory} {a : Nat} {v : Byte} {c : Host.Cell} :
    c ∈ Memory.insertCell m a v ↔ c = (a, v) ∨ c ∈ m := by
  induction m with
  | nil => simp [Memory.insertCell]
  | cons d m ih =>
    obtain ⟨b, w⟩ := d
    simp only [Memory.insertCell]
    split_ifs
    · simp
    · simp only [List.mem_cons, ih]; tauto

theorem Memory.read_insertCell {m : Memory} {a : Nat} (v : Byte) (h : ∀ c ∈ m, c.1 ≠ a) (b : Nat) :
    Memory.read (Memory.insertCell m a v) b = if b = a then v else Memory.read m b := by
  induction m with
  | nil => rfl
  | cons c m ih =>
    obtain ⟨d, w⟩ := c
    have hd : d ≠ a := h (d, w) (by simp)
    simp only [Memory.insertCell]
    split_ifs with h1 h2 h2
    · rw [Memory.read_cons, if_pos h2]
    · rw [Memory.read_cons, if_neg h2]
    · rw [Memory.read_cons, if_neg (by simpa [h2] using Ne.symm hd), ih fun c hc => h c (by simp [hc]), if_pos h2]
    · rw [Memory.read_cons, Memory.read_cons, ih fun c hc => h c (by simp [hc]), if_neg h2]

/-- A read after a write: the byte written at its place, every other byte as before. -/
theorem Memory.read_write (m : Memory) (a : Nat) (v : Byte) (b : Nat) :
    Memory.read (Memory.write m a v) b = if b = a then v else Memory.read m b := by
  unfold Memory.write
  split_ifs with h1 h2 h2
  · rw [Memory.read_filter_ne, if_pos h2, h1]
  · rw [Memory.read_filter_ne, if_neg h2]
  · rw [Memory.read_insertCell v (by simp), if_pos h2]
  · rw [Memory.read_insertCell v (by simp), if_neg h2, Memory.read_filter_ne, if_neg h2]

/-! ### The canonical form -/

@[simp] theorem Memory.wf_nil : Memory.wf [] = true := rfl

theorem Memory.wf_cons (c : Host.Cell) (m : Memory) : Memory.wf (c :: m) = true ↔
    c.2 ≠ Config.blankByte ∧ (∀ d ∈ m, c.1 < d.1) ∧ Memory.wf m = true := by
  obtain ⟨a, v⟩ := c
  simp [Memory.wf, and_assoc]

theorem Memory.wf_filter {m : Memory} (f : Host.Cell → Bool) (h : Memory.wf m = true) :
    Memory.wf (m.filter f) = true := by
  induction m with
  | nil => rfl
  | cons c m ih =>
    obtain ⟨h1, h2, h3⟩ := (Memory.wf_cons c m).mp h
    by_cases hc : f c = true
    · rw [List.filter_cons_of_pos hc, Memory.wf_cons]
      exact ⟨h1, fun d hd => h2 d (List.mem_of_mem_filter hd), ih h3⟩
    · rw [List.filter_cons_of_neg hc]; exact ih h3

theorem Memory.wf_insertCell {m : Memory} {a : Nat} {v : Byte} (hv : v ≠ Config.blankByte)
    (h : Memory.wf m = true) (ha : ∀ c ∈ m, c.1 ≠ a) : Memory.wf (Memory.insertCell m a v) = true := by
  induction m with
  | nil => simp [Memory.insertCell, Memory.wf_cons, hv]
  | cons c m ih =>
    obtain ⟨b, w⟩ := c
    obtain ⟨h1, h2, h3⟩ := (Memory.wf_cons (b, w) m).mp h
    have hb : b ≠ a := ha (b, w) (by simp)
    simp only [Memory.insertCell]
    split_ifs with hab
    · refine (Memory.wf_cons _ _).mpr ⟨hv, ?_, h⟩
      intro d hd
      rcases List.mem_cons.mp hd with rfl | hd
      · exact hab
      · exact hab.trans (h2 d hd)
    · refine (Memory.wf_cons _ _).mpr ⟨h1, ?_, ih h3 fun c hc => ha c (by simp [hc])⟩
      intro d hd
      rcases Memory.mem_insertCell.mp hd with rfl | hd
      · exact lt_of_le_of_ne (not_lt.mp hab) hb
      · exact h2 d hd

/-- A write keeps the canonical form. -/
theorem Memory.wf_write {m : Memory} (h : Memory.wf m = true) (a : Nat) (v : Byte) :
    Memory.wf (Memory.write m a v) = true := by
  unfold Memory.write
  split_ifs with hv
  · exact Memory.wf_filter _ h
  · exact Memory.wf_insertCell hv (Memory.wf_filter _ h) (by simp)

theorem Memory.within_iff {len : Nat} {m : Memory} : Memory.within len m = true ↔ ∀ c ∈ m, c.1 < len := by
  simp [Memory.within]

/-- A write below the length keeps every cell below it. -/
theorem Memory.within_write {len : Nat} {m : Memory} (h : Memory.within len m = true) {a : Nat} (ha : a < len)
    (v : Byte) : Memory.within len (Memory.write m a v) = true := by
  rw [Memory.within_iff] at h ⊢
  intro c hc
  unfold Memory.write at hc
  split_ifs at hc
  · exact h c (List.mem_of_mem_filter hc)
  · rcases Memory.mem_insertCell.mp hc with rfl | hc
    · exact ha
    · exact h c (List.mem_of_mem_filter hc)

/-- Nothing stands at or above the length. -/
theorem Memory.read_of_within {len : Nat} {m : Memory} (h : Memory.within len m = true) {a : Nat} (ha : len ≤ a) :
    Memory.read m a = Config.blankByte :=
  Memory.read_of_forall_ne fun c hc => (lt_of_lt_of_le (Memory.within_iff.mp h c hc) ha).ne

/-- In canonical form a listed byte is not the blank one. -/
theorem Memory.read_head_ne {c : Host.Cell} {m : Memory} (h : Memory.wf (c :: m) = true) :
    Memory.read (c :: m) c.1 ≠ Config.blankByte := by
  rw [Memory.read_cons, if_pos rfl]
  exact ((Memory.wf_cons c m).mp h).1

theorem Memory.read_of_lt {c : Host.Cell} {m : Memory} (h : Memory.wf (c :: m) = true) {a : Nat} (ha : a < c.1) :
    Memory.read (c :: m) a = Config.blankByte := by
  refine Memory.read_of_forall_ne fun d hd => ?_
  rcases List.mem_cons.mp hd with rfl | hd
  · exact ha.ne'
  · exact (ha.trans (((Memory.wf_cons c m).mp h).2.1 d hd)).ne'

theorem Memory.read_tail {c : Host.Cell} {m : Memory} (h : Memory.wf (c :: m) = true) (a : Nat) :
    Memory.read m a = if a = c.1 then Config.blankByte else Memory.read (c :: m) a := by
  split_ifs with ha
  · subst ha
    exact Memory.read_of_forall_ne fun d hd => (((Memory.wf_cons c m).mp h).2.1 d hd).ne'
  · rw [Memory.read_cons, if_neg ha]

/-- Equal bytes are equal data: two buffers in canonical form that read the same are the same list. -/
theorem Memory.ext {m n : Memory} (hm : Memory.wf m = true) (hn : Memory.wf n = true)
    (h : ∀ a, Memory.read m a = Memory.read n a) : m = n := by
  induction m generalizing n with
  | nil =>
    cases n with
    | nil => rfl
    | cons d n => exact absurd (h d.1).symm (Memory.read_head_ne hn)
  | cons c m ih =>
    cases n with
    | nil => exact absurd (h c.1) (Memory.read_head_ne hm)
    | cons d n =>
      have hcd : c.1 = d.1 := by
        rcases lt_trichotomy c.1 d.1 with hlt | heq | hlt
        · exact absurd ((h c.1).trans (Memory.read_of_lt hn hlt)) (Memory.read_head_ne hm)
        · exact heq
        · exact absurd ((h d.1).symm.trans (Memory.read_of_lt hm hlt)) (Memory.read_head_ne hn)
      have hv : c.2 = d.2 := by
        have := h c.1
        rwa [Memory.read_cons, if_pos rfl, hcd, Memory.read_cons, if_pos rfl] at this
      have ht : m = n := ih ((Memory.wf_cons c m).mp hm).2.2 ((Memory.wf_cons d n).mp hn).2.2 fun a => by
        rw [Memory.read_tail hm, Memory.read_tail hn, hcd, h a]
      rw [ht, Prod.ext hcd hv]

/-! ### A buffer given byte by byte -/

theorem Memory.read_ofBytes (f : Nat → Byte) (len a : Nat) :
    Memory.read (Memory.ofBytes f len) a = if a < len then f a else Config.blankByte := by
  induction len with
  | zero => rfl
  | succ n ih =>
    rw [Memory.ofBytes, Memory.read_write, ih]
    by_cases h : a = n
    · subst h; rw [if_pos rfl, if_pos (Nat.lt_succ_self a)]
    · rw [if_neg h]
      exact if_congr (by omega) rfl rfl

theorem Memory.wf_ofBytes (f : Nat → Byte) (len : Nat) : Memory.wf (Memory.ofBytes f len) = true := by
  induction len with
  | zero => rfl
  | succ n ih => exact Memory.wf_write ih n (f n)

theorem Memory.within_mono {m : Memory} {n k : Nat} (h : Memory.within n m = true) (hk : n ≤ k) :
    Memory.within k m = true :=
  Memory.within_iff.mpr fun c hc => (Memory.within_iff.mp h c hc).trans_le hk

theorem Memory.within_ofBytes (f : Nat → Byte) (len : Nat) : Memory.within len (Memory.ofBytes f len) = true := by
  induction len with
  | zero => rfl
  | succ n ih => exact Memory.within_write (Memory.within_mono ih n.le_succ) n.lt_succ_self (f n)

end Sys2Proof.Machine
end

