-- ==== Sys2Proof/Laws/Network.lean ====
section
/-! SUPPORT. The network one bit at a time, its bound, and the two admissibility checks as propositions. -/

namespace Sys2Proof.Machine

@[simp] theorem netBits_tx : netBits .tx = 19 := rfl
@[simp] theorem netBits_bg : netBits .bg = 20 := rfl
@[simp] theorem hdrLen_tx : hdrLen .tx = 0x40 := rfl
@[simp] theorem hdrLen_bg : hdrLen .bg = 0x100 := rfl

/-- Clearing the low bits is rounding down to a multiple of `2^n`. -/
theorem clearLow_eq (n i : Nat) : clearLow n i = i / 2 ^ n * 2 ^ n := by
  rw [clearLow, Nat.shiftLeft_eq, Nat.shiftRight_eq_div_pow]

theorem testBit_clearLow (n i k : Nat) : (clearLow n i).testBit k = (decide (n ≤ k) && i.testBit k) := by
  simp only [clearLow, Nat.testBit_shiftLeft, Nat.testBit_shiftRight, ge_iff_le]
  by_cases h : n ≤ k <;> simp [h]

/-- What one table entry does to the bit under construction. -/
theorem testBit_netOf (table : List (Nat × Nat)) (w k : Nat) :
    (netOf table w).testBit k =
      table.foldl (fun acc e => acc ^^ (w.testBit e.1 && e.2.testBit k)) false := by
  suffices h : ∀ (t : List (Nat × Nat)) (j : Nat) (b : Bool), j.testBit k = b →
      (t.foldl (fun j e => if w.testBit e.1 then j ^^^ e.2 else j) j).testBit k =
        t.foldl (fun acc e => acc ^^ (w.testBit e.1 && e.2.testBit k)) b from
    h table 0 false (Nat.zero_testBit k)
  intro t
  induction t with
  | nil => intro j b h; exact h
  | cons e t ih =>
    intro j b h
    refine ih _ _ ?_
    dsimp only
    split_ifs with hw
    · simp [hw, h, Nat.testBit_xor]
    · simp [hw, h]

/-- A network whose masks are below a power of two stays below it. -/
theorem netOf_lt {table : List (Nat × Nat)} {n : Nat} (h : ∀ e ∈ table, e.2 < 2 ^ n) (w : Nat) :
    netOf table w < 2 ^ n := by
  suffices h' : ∀ (t : List (Nat × Nat)) (j : Nat), (∀ e ∈ t, e.2 < 2 ^ n) → j < 2 ^ n →
      t.foldl (fun j e => if w.testBit e.1 then j ^^^ e.2 else j) j < 2 ^ n from
    h' table 0 h (Nat.two_pow_pos n)
  intro t
  induction t with
  | nil => intro j _ hj; exact hj
  | cons e t ih =>
    intro j he hj
    refine ih _ (fun d hd => he d (by simp [hd])) ?_
    dsimp only
    split_ifs
    · exact Nat.xor_lt_two_pow hj (he e (by simp))
    · exact hj

/-- The network's output has the network's bits (19 for tx, 20 for bg). -/
theorem net_lt (p : Plane) (w : Nat) : net p w < 2 ^ netBits p := by
  refine netOf_lt ?_ w
  cases p <;> decide

/-- The network tests no bit of `w` from `n` up when no entry names one. -/
theorem netOf_congr {table : List (Nat × Nat)} {w w' : Nat} (h : ∀ e ∈ table, w.testBit e.1 = w'.testBit e.1) :
    netOf table w = netOf table w' := by
  suffices h' : ∀ (t : List (Nat × Nat)) (j : Nat), (∀ e ∈ t, w.testBit e.1 = w'.testBit e.1) →
      t.foldl (fun j e => if w.testBit e.1 then j ^^^ e.2 else j) j =
        t.foldl (fun j e => if w'.testBit e.1 then j ^^^ e.2 else j) j from h' table 0 h
  intro t
  induction t with
  | nil => intro j _; rfl
  | cons e t ih =>
    intro j he
    simp only [List.foldl_cons, he e (by simp)]
    exact ih _ fun d hd => he d (by simp [hd])

theorem addrMap_tx (x : Addr20) (i : Nat) : addrMap .tx x i = net .tx (i ^^^ x.toNat) := by
  simp [addrMap, passHigh, workingAddr]

theorem addrMap_bg (x : Addr20) (i : Nat) :
    addrMap .bg x i = clearLow 20 i ||| net .bg (i ^^^ x.toNat) := by
  simp only [addrMap, passHigh, workingAddr]

/-- The tx map stays below `2^19`. -/
theorem addrMap_tx_lt (x : Addr20) (i : Nat) : addrMap .tx x i < 2 ^ 19 := by
  rw [addrMap_tx]
  simpa using net_lt .tx (i ^^^ x.toNat)

theorem allFrom_iff {f : Nat → Bool} {i n : Nat} : allFrom f i n = true ↔ ∀ k, i ≤ k → k < i + n → f k = true := by
  induction n generalizing i with
  | zero => simp only [allFrom, true_iff]; intro k h1 h2; omega
  | succ n ih =>
    rw [allFrom, Bool.and_eq_true, ih]
    constructor
    · rintro ⟨h0, h⟩ k h1 h2
      rcases eq_or_lt_of_le h1 with rfl | h1
      · exact h0
      · exact h k h1 (by omega)
    · intro h
      exact ⟨h i le_rfl (by omega), fun k h1 h2 => h k (by omega) (by omega)⟩

theorem allBelow_iff {f : Nat → Bool} {len : Nat} : allBelow len f = true ↔ ∀ i < len, f i = true := by
  simp [allBelow, allFrom_iff]

/-- `InRange`, as R93 says it. -/
theorem inRange_iff {p : Plane} {x : Addr20} {len : Nat} :
    inRange p x len = true ↔ ∀ i < len, addrMap p x i < len := by
  simp [inRange, allBelow_iff]

theorem inRange_eq_false_iff {p : Plane} {x : Addr20} {len : Nat} :
    inRange p x len = false ↔ ¬∀ i < len, addrMap p x i < len := by
  rw [← inRange_iff, Bool.not_eq_true]

/-- `Injective`, as R94 says it. -/
theorem injective_iff {p : Plane} {x : Addr20} {len : Nat} :
    injective p x len = true ↔ ∀ i₁ < len, ∀ i₂ < len, i₁ ≠ i₂ → addrMap p x i₁ ≠ addrMap p x i₂ := by
  simp only [injective, allBelow_iff, Bool.or_eq_true, beq_iff_eq, bne_iff_ne, ne_eq, or_iff_not_imp_left]

theorem injective_eq_false_iff {p : Plane} {x : Addr20} {len : Nat} :
    injective p x len = false ↔ ¬∀ i₁ < len, ∀ i₂ < len, i₁ ≠ i₂ → addrMap p x i₁ ≠ addrMap p x i₂ := by
  rw [← injective_iff, Bool.not_eq_true]

end Sys2Proof.Machine
end

