-- ==== Sys2Proof/Laws/State.lean ====
section
/-! SUPPORT. One lemma per field and update of the state, and what the updates keep. -/

namespace Sys2Proof.Machine

variable (s : State)

@[simp] theorem State.bindBuffers_desc (n : Nat) (x y : Memory) : (s.bindBuffers n x y).desc = s.desc := rfl
@[simp] theorem State.bindBuffers_a (n : Nat) (x y : Memory) : (s.bindBuffers n x y).a = s.a := rfl
@[simp] theorem State.bindBuffers_issued (n : Nat) (x y : Memory) : (s.bindBuffers n x y).issued = s.issued := rfl
@[simp] theorem State.bindBuffers_len (n : Nat) (x y : Memory) : (s.bindBuffers n x y).len = n := rfl
@[simp] theorem State.bindBuffers_src (n : Nat) (x y : Memory) : (s.bindBuffers n x y).src = x := rfl
@[simp] theorem State.bindBuffers_dst (n : Nat) (x y : Memory) : (s.bindBuffers n x y).dst = y := rfl
@[simp] theorem State.bindBuffers_response (n : Nat) (x y : Memory) : (s.bindBuffers n x y).response = s.response := rfl
@[simp] theorem State.bindBuffers_busy (n : Nat) (x y : Memory) : (s.bindBuffers n x y).busy = s.busy := rfl
@[simp] theorem State.bindBuffers_freeTick (n : Nat) (x y : Memory) : (s.bindBuffers n x y).freeTick = s.freeTick := rfl

@[simp] theorem State.issue_desc (d : Word) (x : Nat) : (s.issue d x).desc = d := rfl
@[simp] theorem State.issue_a (d : Word) (x : Nat) : (s.issue d x).a = x := rfl
@[simp] theorem State.issue_issued (d : Word) (x : Nat) : (s.issue d x).issued = true := rfl
@[simp] theorem State.issue_len (d : Word) (x : Nat) : (s.issue d x).len = s.len := rfl
@[simp] theorem State.issue_src (d : Word) (x : Nat) : (s.issue d x).src = s.src := rfl
@[simp] theorem State.issue_dst (d : Word) (x : Nat) : (s.issue d x).dst = s.dst := rfl
@[simp] theorem State.issue_response (d : Word) (x : Nat) : (s.issue d x).response = none := rfl
@[simp] theorem State.issue_busy (d : Word) (x : Nat) : (s.issue d x).busy = s.busy := rfl
@[simp] theorem State.issue_freeTick (d : Word) (x : Nat) : (s.issue d x).freeTick = s.freeTick := rfl

@[simp] theorem State.accept_desc : (s.accept).desc = s.desc := rfl
@[simp] theorem State.accept_a : (s.accept).a = s.a := rfl
@[simp] theorem State.accept_issued : (s.accept).issued = false := rfl
@[simp] theorem State.accept_len : (s.accept).len = s.len := rfl
@[simp] theorem State.accept_src : (s.accept).src = s.src := rfl
@[simp] theorem State.accept_dst : (s.accept).dst = s.dst := rfl
@[simp] theorem State.accept_response : (s.accept).response = none := rfl
@[simp] theorem State.accept_busy : (s.accept).busy = true := rfl
@[simp] theorem State.accept_freeTick : (s.accept).freeTick = s.freeTick := rfl

@[simp] theorem State.endOk_desc (r : Response) (m : Memory) : (s.endOk r m).desc = s.desc := rfl
@[simp] theorem State.endOk_a (r : Response) (m : Memory) : (s.endOk r m).a = s.a := rfl
@[simp] theorem State.endOk_issued (r : Response) (m : Memory) : (s.endOk r m).issued = s.issued := rfl
@[simp] theorem State.endOk_len (r : Response) (m : Memory) : (s.endOk r m).len = s.len := rfl
@[simp] theorem State.endOk_src (r : Response) (m : Memory) : (s.endOk r m).src = s.src := rfl
@[simp] theorem State.endOk_dst (r : Response) (m : Memory) : (s.endOk r m).dst = m := rfl
@[simp] theorem State.endOk_response (r : Response) (m : Memory) : (s.endOk r m).response = some r := rfl
@[simp] theorem State.endOk_busy (r : Response) (m : Memory) : (s.endOk r m).busy = false := rfl
@[simp] theorem State.endOk_freeTick (r : Response) (m : Memory) : (s.endOk r m).freeTick = s.freeTick := rfl

@[simp] theorem State.endNonOk_desc (r : Response) : (s.endNonOk r).desc = s.desc := rfl
@[simp] theorem State.endNonOk_a (r : Response) : (s.endNonOk r).a = s.a := rfl
@[simp] theorem State.endNonOk_issued (r : Response) : (s.endNonOk r).issued = s.issued := rfl
@[simp] theorem State.endNonOk_len (r : Response) : (s.endNonOk r).len = s.len := rfl
@[simp] theorem State.endNonOk_src (r : Response) : (s.endNonOk r).src = s.src := rfl
@[simp] theorem State.endNonOk_dst (r : Response) : (s.endNonOk r).dst = s.dst := rfl
@[simp] theorem State.endNonOk_response (r : Response) : (s.endNonOk r).response = some r := rfl
@[simp] theorem State.endNonOk_busy (r : Response) : (s.endNonOk r).busy = false := rfl
@[simp] theorem State.endNonOk_freeTick (r : Response) : (s.endNonOk r).freeTick = s.freeTick := rfl

@[simp] theorem State.idle_desc : (s.idle).desc = s.desc := rfl
@[simp] theorem State.idle_a : (s.idle).a = s.a := rfl
@[simp] theorem State.idle_issued : (s.idle).issued = s.issued := rfl
@[simp] theorem State.idle_len : (s.idle).len = s.len := rfl
@[simp] theorem State.idle_src : (s.idle).src = s.src := rfl
@[simp] theorem State.idle_dst : (s.idle).dst = s.dst := rfl
@[simp] theorem State.idle_response : (s.idle).response = none := rfl
@[simp] theorem State.idle_busy : (s.idle).busy = false := rfl
@[simp] theorem State.idle_freeTick : (s.idle).freeTick = s.freeTick := rfl

@[simp] theorem State.reset_desc : State.reset.desc = 0#64 := rfl
@[simp] theorem State.reset_a : State.reset.a = 0 := rfl
@[simp] theorem State.reset_issued : State.reset.issued = false := rfl
@[simp] theorem State.reset_len : State.reset.len = 0 := rfl
@[simp] theorem State.reset_src : State.reset.src = [] := rfl
@[simp] theorem State.reset_dst : State.reset.dst = [] := rfl
@[simp] theorem State.reset_response : State.reset.response = none := rfl
@[simp] theorem State.reset_busy : State.reset.busy = false := rfl
@[simp] theorem State.reset_freeTick : State.reset.freeTick = 0 := rfl

/-- A status is the same update as an OK end that leaves DST as it is. -/
theorem State.endNonOk_eq_endOk (r : Response) : s.endNonOk r = s.endOk r s.dst := rfl

/-- The stored word is the issue of that word, with the operand A already at the port. -/
theorem State.withFetchWord_eq (nbits w : Nat) :
    s.withFetchWord nbits w = s.issue (BitVec.ofNat 64 (w % 2 ^ nbits)) s.a := rfl

theorem State.assertReset_of_inFlight (h : s.inFlight = true) :
    s.assertReset = { s with
      issued := false, busy := false, response := none,
      dst := Memory.ofBytes (Config.freeByte s.freeTick) s.len, freeTick := s.freeTick + 1 } :=
  if_pos h

theorem State.assertReset_of_not_inFlight (h : s.inFlight = false) :
    s.assertReset = { s with issued := false, busy := false, response := none } := by
  simp [State.assertReset, h]

/-- The invariant, clause by clause. -/
theorem State.inv_iff : s.inv = true ↔
    Memory.wf s.src = true ∧ Memory.within s.len s.src = true ∧ Memory.wf s.dst = true ∧
      Memory.within s.len s.dst = true ∧ s.busy = false ∧ (s.issued = true → s.response = none) := by
  simp [State.inv, and_assoc, imp_iff_not_or]

end Sys2Proof.Machine
end

