-- ==== Sys2Proof/Laws/Buffer.lean ====
section
/-! SUPPORT. What the shared procedures of the buffer commands do, said once. -/

namespace Sys2Proof.Machine

/-! ### The loop -/

/-- The staging copy after writes at the positions `pos i` for the `i` of a list. -/
def stageAll (pos : Nat → Nat) (val : Nat → Byte) (order : List Nat) (staging : Memory) : Memory :=
  order.foldl (fun m i => Memory.write m (pos i) (val i)) staging

/-- If every step of the order answers a byte for a position below LEN, the loop answers the staging copy with all of
them written. -/
theorem runSteps_eq_stageAll {len : Nat} {stepAt : AddressStep} {pos : Nat → Nat} {val : Nat → Byte}
    {order : List Nat} (h : ∀ i ∈ order, stepAt i = .ok (pos i, val i) ∧ pos i < len) (staging : Memory) :
    runSteps len stepAt order staging = .ok (stageAll pos val order staging) := by
  induction order generalizing staging with
  | nil => rfl
  | cons i rest ih =>
    obtain ⟨hi, hlt⟩ := h i (by simp)
    simp only [runSteps, hi, dstWrite, if_pos hlt]
    exact ih (fun k hk => h k (by simp [hk])) _

/-- A position no step writes keeps its byte. -/
theorem read_stageAll_of_forall_ne {pos : Nat → Nat} {val : Nat → Byte} {order : List Nat} {k : Nat}
    (h : ∀ i ∈ order, pos i ≠ k) (staging : Memory) :
    Memory.read (stageAll pos val order staging) k = Memory.read staging k := by
  induction order generalizing staging with
  | nil => rfl
  | cons i rest ih =>
    have := ih (fun j hj => h j (by simp [hj])) (Memory.write staging (pos i) (val i))
    rw [Memory.read_write, if_neg (Ne.symm (h i (by simp)))] at this
    exact this

/-- A position that exactly one step writes holds that step's byte, in any order of the steps. -/
theorem read_stageAll_of_mem {pos : Nat → Nat} {val : Nat → Byte} {order : List Nat}
    (hinj : ∀ i ∈ order, ∀ j ∈ order, pos i = pos j → i = j) {i : Nat} (hi : i ∈ order) (staging : Memory) :
    Memory.read (stageAll pos val order staging) (pos i) = val i := by
  induction order generalizing staging with
  | nil => simp at hi
  | cons j rest ih =>
    change Memory.read (stageAll pos val rest (Memory.write staging (pos j) (val j))) (pos i) = val i
    by_cases hr : i ∈ rest
    · exact ih (fun a ha b hb => hinj a (by simp [ha]) b (by simp [hb])) hr _
    · have hij : i = j := by simpa [hr] using hi
      subst hij
      rw [read_stageAll_of_forall_ne, Memory.read_write, if_pos rfl]
      intro k hk hpos
      exact hr (hinj k (by simp [hk]) i hi hpos ▸ hk)

/-- The loop keeps the canonical form. -/
theorem wf_stageAll {pos : Nat → Nat} {val : Nat → Byte} (order : List Nat) {staging : Memory}
    (h : Memory.wf staging = true) : Memory.wf (stageAll pos val order staging) = true := by
  induction order generalizing staging with
  | nil => exact h
  | cons i rest ih => exact ih (Memory.wf_write h _ _)

/-- The loop keeps every cell below LEN. -/
theorem within_stageAll {len : Nat} {pos : Nat → Nat} {val : Nat → Byte} {order : List Nat}
    (hpos : ∀ i ∈ order, pos i < len) {staging : Memory} (h : Memory.within len staging = true) :
    Memory.within len (stageAll pos val order staging) = true := by
  induction order generalizing staging with
  | nil => exact h
  | cons i rest ih =>
    exact ih (fun j hj => hpos j (by simp [hj])) (Memory.within_write h (hpos i (by simp)) _)

/-! ### The two steps -/

theorem State.decStep_eq {s : State} {p : Plane} {x : Addr20} {dxor : Byte} {i : Nat}
    (h : addrMap p x i < s.len) :
    s.decStep p x dxor i = .ok (i, decByte dxor i (Memory.read s.src (addrMap p x i))) := by
  simp [State.decStep, State.srcRead, h]

theorem State.encStep_eq {s : State} {p : Plane} {x : Addr20} {dxor hdr : Byte} {i : Nat} (h : i < s.len) :
    s.encStep p x dxor hdr i = .ok (addrMap p x i, encByte p hdr dxor i (Memory.read s.src i)) := by
  simp [State.encStep, State.srcRead, h]

/-! ### The procedures -/

/-- The DST of an admitted decrypt. -/
def decImage (p : Plane) (x : Addr20) (dxor : Byte) (s : State) : Memory :=
  stageAll id (fun i => decByte dxor i (Memory.read s.src (addrMap p x i))) (List.range s.len) s.dst

/-- The DST of an admitted encrypt. -/
def encImage (p : Plane) (x : Addr20) (dxor hdr : Byte) (s : State) : Memory :=
  stageAll (addrMap p x) (fun i => encByte p hdr dxor i (Memory.read s.src i)) (List.range s.len) s.dst

/-- Everything `DECRYPT(P)` can do (R96): one of two next states, never a fault or a refusal. -/
theorem decryptBuffer_eq (p : Plane) (axb : Addr20) (dxor : Byte) (s : State) :
    decryptBuffer p axb dxor s =
      .next (if inRange p (combinedXor p axb) s.len then
        s.endOk .okBuffer (decImage p (combinedXor p axb) dxor s) else s.endNonOk .rangeFault) := by
  unfold decryptBuffer
  by_cases h : inRange p (combinedXor p axb) s.len = true
  · have hr := inRange_iff.mp h
    simp only [h, if_true]
    rw [runSteps_eq_stageAll (pos := id)
      (val := fun i => decByte dxor i (Memory.read s.src (addrMap p (combinedXor p axb) i)))]
    · rfl
    · intro i hi
      exact ⟨State.decStep_eq (hr i (List.mem_range.mp hi)), List.mem_range.mp hi⟩
  · simp [h]

/-- Everything `ENCRYPT(P)` can do (R97): one of three next states, never a fault or a refusal. -/
theorem encryptBuffer_eq (p : Plane) (axb : Addr20) (dxor hdr : Byte) (s : State) :
    encryptBuffer p axb dxor hdr s =
      .next (if inRange p (combinedXor p axb) s.len then
        if injective p (combinedXor p axb) s.len then
          s.endOk .okBuffer (encImage p (combinedXor p axb) dxor hdr s)
        else s.endNonOk .collisionRefused
      else s.endNonOk .rangeFault) := by
  unfold encryptBuffer
  by_cases h : inRange p (combinedXor p axb) s.len = true
  · by_cases hj : injective p (combinedXor p axb) s.len = true
    · simp only [h, hj, if_true]
      rw [runSteps_eq_stageAll (pos := addrMap p (combinedXor p axb))
        (val := fun i => encByte p hdr dxor i (Memory.read s.src i))]
      · rfl
      · intro i hi
        exact ⟨State.encStep_eq (List.mem_range.mp hi), inRange_iff.mp h i (List.mem_range.mp hi)⟩
    · simp [h, hj]
  · simp [h]

/-- A byte of an admitted decrypt's DST below LEN. -/
theorem read_decImage {p : Plane} {x : Addr20} {dxor : Byte} {s : State} {i : Nat} (h : i < s.len) :
    Memory.read (decImage p x dxor s) i = decByte dxor i (Memory.read s.src (addrMap p x i)) :=
  read_stageAll_of_mem (pos := id) (fun _ _ _ _ h => h) (List.mem_range.mpr h) _

theorem read_decImage_of_le {p : Plane} {x : Addr20} {dxor : Byte} {s : State} {k : Nat} (h : s.len ≤ k) :
    Memory.read (decImage p x dxor s) k = Memory.read s.dst k :=
  read_stageAll_of_forall_ne (fun _ hi => ((List.mem_range.mp hi).trans_le h).ne) _

/-- A byte of an admitted encrypt's DST, at the position its logical address maps to. -/
theorem read_encImage {p : Plane} {x : Addr20} {dxor hdr : Byte} {s : State}
    (hj : injective p x s.len = true) {i : Nat} (h : i < s.len) :
    Memory.read (encImage p x dxor hdr s) (addrMap p x i) = encByte p hdr dxor i (Memory.read s.src i) := by
  refine read_stageAll_of_mem ?_ (List.mem_range.mpr h) _
  intro a ha b hb hab
  by_contra hne
  exact injective_iff.mp hj a (List.mem_range.mp ha) b (List.mem_range.mp hb) hne hab

theorem read_encImage_of_le {p : Plane} {x : Addr20} {dxor hdr : Byte} {s : State}
    (hr : inRange p x s.len = true) {k : Nat} (h : s.len ≤ k) :
    Memory.read (encImage p x dxor hdr s) k = Memory.read s.dst k :=
  read_stageAll_of_forall_ne (fun i hi => ((inRange_iff.mp hr i (List.mem_range.mp hi)).trans_le h).ne) _

theorem wf_decImage {p : Plane} {x : Addr20} {dxor : Byte} {s : State} (h : Memory.wf s.dst = true) :
    Memory.wf (decImage p x dxor s) = true :=
  wf_stageAll _ h

theorem within_decImage {p : Plane} {x : Addr20} {dxor : Byte} {s : State}
    (h : Memory.within s.len s.dst = true) : Memory.within s.len (decImage p x dxor s) = true :=
  within_stageAll (pos := id) (fun _ hi => List.mem_range.mp hi) h

theorem wf_encImage {p : Plane} {x : Addr20} {dxor hdr : Byte} {s : State} (h : Memory.wf s.dst = true) :
    Memory.wf (encImage p x dxor hdr s) = true :=
  wf_stageAll _ h

theorem within_encImage {p : Plane} {x : Addr20} {dxor hdr : Byte} {s : State}
    (hr : inRange p x s.len = true) (h : Memory.within s.len s.dst = true) :
    Memory.within s.len (encImage p x dxor hdr s) = true :=
  within_stageAll (fun i hi => inRange_iff.mp hr i (List.mem_range.mp hi)) h

end Sys2Proof.Machine
end

