-- ==== Sys2Proof/Laws/Step.lean ====
section
/-! SUPPORT. What one step can do, said once. -/

namespace Sys2Proof.Machine

/-- DEC.TX is one of the two ends of `DECRYPT(tx)`. -/
theorem exec_decTx_eq (axb : Addr20) (dxor hdr : Byte) (s : State) :
    exec (.decTx axb dxor hdr) s =
      .next (if inRange .tx (combinedXor .tx axb) s.len then
        s.endOk .okBuffer (decImage .tx (combinedXor .tx axb) dxor s) else s.endNonOk .rangeFault) :=
  decryptBuffer_eq .tx axb dxor s

/-- DEC.BG is one of the two ends of `DECRYPT(bg)`. -/
theorem exec_decBg_eq (axb : Addr20) (dxor hdr : Byte) (s : State) :
    exec (.decBg axb dxor hdr) s =
      .next (if inRange .bg (combinedXor .bg axb) s.len then
        s.endOk .okBuffer (decImage .bg (combinedXor .bg axb) dxor s) else s.endNonOk .rangeFault) :=
  decryptBuffer_eq .bg axb dxor s

/-- ENC.TX is one of the three ends of `ENCRYPT(tx)`. -/
theorem exec_encTx_eq (axb : Addr20) (dxor hdr : Byte) (s : State) :
    exec (.encTx axb dxor hdr) s =
      .next (if inRange .tx (combinedXor .tx axb) s.len then
        if injective .tx (combinedXor .tx axb) s.len then
          s.endOk .okBuffer (encImage .tx (combinedXor .tx axb) dxor hdr s)
        else s.endNonOk .collisionRefused
      else s.endNonOk .rangeFault) :=
  encryptBuffer_eq .tx axb dxor hdr s

/-- ENC.BG is one of the three ends of `ENCRYPT(bg)`. -/
theorem exec_encBg_eq (axb : Addr20) (dxor hdr : Byte) (s : State) :
    exec (.encBg axb dxor hdr) s =
      .next (if inRange .bg (combinedXor .bg axb) s.len then
        if injective .bg (combinedXor .bg axb) s.len then
          s.endOk .okBuffer (encImage .bg (combinedXor .bg axb) dxor hdr s)
        else s.endNonOk .collisionRefused
      else s.endNonOk .rangeFault) :=
  encryptBuffer_eq .bg axb dxor hdr s

/-- Everything a command can do when it answers a next state: it ends with an OK response and a new DST, or with a
non-OK response and the old DST. Nothing else changes but BUSY, which is 0. -/
theorem exec_cases {i : Instr} {s t : State} (h : exec i s = .next t) :
    (∃ j, t = s.endOk (.okAddress j) s.dst) ∨
    (∃ d, t = s.endOk .okBuffer d ∧ (Memory.wf s.dst = true → Memory.wf d = true) ∧
      (Memory.within s.len s.dst = true → Memory.within s.len d = true)) ∨
    t = s.endNonOk .rangeFault ∨ t = s.endNonOk .collisionRefused := by
  have hdec : ∀ p axb dxor, decryptBuffer p axb dxor s = .next t →
      (∃ d, t = s.endOk .okBuffer d ∧ (Memory.wf s.dst = true → Memory.wf d = true) ∧
        (Memory.within s.len s.dst = true → Memory.within s.len d = true)) ∨ t = s.endNonOk .rangeFault := by
    intro p axb dxor h
    rw [decryptBuffer_eq, Host.Outcome.next.injEq] at h
    split_ifs at h
    · exact .inl ⟨_, h.symm, wf_decImage, within_decImage⟩
    · exact .inr h.symm
  have henc : ∀ p axb dxor hdr, encryptBuffer p axb dxor hdr s = .next t →
      (∃ d, t = s.endOk .okBuffer d ∧ (Memory.wf s.dst = true → Memory.wf d = true) ∧
        (Memory.within s.len s.dst = true → Memory.within s.len d = true)) ∨
        t = s.endNonOk .rangeFault ∨ t = s.endNonOk .collisionRefused := by
    intro p axb dxor hdr h
    rw [encryptBuffer_eq, Host.Outcome.next.injEq] at h
    split_ifs at h with h1
    · exact .inl ⟨_, h.symm, wf_encImage, within_encImage h1⟩
    · exact .inr (.inr h.symm)
    · exact .inr (.inl h.symm)
  cases i with
  | netTx axb _ _ => exact .inl ⟨_, (Host.Outcome.next.inj h).symm⟩
  | netBg axb _ _ => exact .inl ⟨_, (Host.Outcome.next.inj h).symm⟩
  | decTx axb dxor _ => exact .inr ((hdec _ _ _ h).imp_right .inl)
  | decBg axb dxor _ => exact .inr ((hdec _ _ _ h).imp_right .inl)
  | encTx axb dxor hdr => exact .inr (henc _ _ _ _ h)
  | encBg axb dxor hdr => exact .inr (henc _ _ _ _ h)

theorem step_of_not_issued {s : State} (h : s.issued = false) : step s = .next s.idle := by
  simp [step, h]

theorem step_of_decode_error {s : State} {e : DecodeError} (h : s.issued = true) (hd : decode s.desc = .error e) :
    step s = .next (s.accept.endNonOk .configError) := by
  simp [step, h, hd]

/-- With a legal descriptor issued, a step that answers `t` is the command's own answer. -/
theorem step_of_exec {s t : State} {i : Instr} (h : s.issued = true) (hd : decode s.desc = .ok i)
    (he : exec i s.accept = .next t) : step s = .next t := by
  simp [step, h, hd, he]

/-- Everything a step can do. -/
theorem step_cases {s t : State} (h : step s = .next t) :
    (s.issued = false ∧ t = s.idle) ∨
    (s.issued = true ∧ (∃ e, decode s.desc = .error e) ∧ t = s.accept.endNonOk .configError) ∨
    (s.issued = true ∧ ∃ i, decode s.desc = .ok i ∧ exec i s.accept = .next t) := by
  unfold step at h
  split_ifs at h with hi
  · refine .inr ?_
    split at h
    · rename_i i hd; exact .inr ⟨hi, i, hd, h⟩
    · rename_i e hd; exact .inl ⟨hi, ⟨e, hd⟩, (Host.Outcome.next.inj h).symm⟩
  · exact .inl ⟨by simpa using hi, (Host.Outcome.next.inj h).symm⟩

end Sys2Proof.Machine
end

