-- ==== Sys2Proof/Laws/Driver.lean ====
section
/-! SUPPORT. What the host does with its buffers, said once. -/

namespace Sys2Proof.Machine

theorem HostBuffer.wf_storage {d : HostBuffer} (h : Memory.wf d.bytes = true) (len : Nat) :
    Memory.wf (d.storage len) = true :=
  Memory.wf_filter _ h

theorem HostBuffer.within_storage (d : HostBuffer) (len : Nat) : Memory.within len (d.storage len) = true :=
  List.all_eq_true.mpr fun _ hc => (List.mem_filter.mp hc).2

theorem commitBuffers_of_ok {buffers : List HostBuffer} {dstId len : Nat} {t : State}
    (h : t.response = some .okBuffer) : commitBuffers buffers dstId len t = buffers.set dstId ⟨len, t.dst⟩ :=
  if_pos h

theorem commitBuffers_of_not_ok {buffers : List HostBuffer} {dstId len : Nat} {t : State}
    (h : t.response ≠ some .okBuffer) : commitBuffers buffers dstId len t = buffers :=
  if_neg h

/-- What the host's buffers are after a legal command on two of them that answers `t`. -/
theorem HostSide.issueCommand_of_exec {h : HostSide} {c : HostCommand} {x y : Nat} {b d : HostBuffer} {i : Instr}
    {t : State} (hp : c.ports = some (x, y)) (hxy : x ≠ y) (hb : h.buffers[x]? = some b) (hd : h.buffers[y]? = some d)
    (hdec : decode c.desc = .ok i)
    (he : exec i ((h.block.bindBuffers b.len b.bytes (d.storage b.len)).issue c.desc c.a).accept = .next t) :
    h.issueCommand c = .next { block := t, buffers := commitBuffers h.buffers y b.len t } := by
  have hs := step_of_exec (State.issue_issued _ c.desc c.a) (by rwa [State.issue_desc]) he
  simp only [HostSide.issueCommand, hp, hxy, hb, hd, if_false, awaitResponse, hs]

end Sys2Proof.Machine
end

