-- ==== Sys2Proof/Laws/PerInstr.lean ====
section
/-! SUPPORT. The CMD byte of every command, field by field (30_encoding.md R54, R57). -/

namespace Sys2Proof.Laws.CmdByte

/-- PLANE is bit 0 of the CMD byte, OP its bits 2:1, the rest is 0, and the command is the one of its operation, plane
and fields. -/
def Statement (i : Instr) : Prop :=
  (i.cmd.getLsbD 0 = true ↔ i.plane = .bg) ∧
  opOfCode (i.cmd.extractLsb' 1 2) = some i.op ∧
  i.cmd.extractLsb' 3 5 = 0#5 ∧
  Instr.ofFields i.op i.plane i.axb i.dxor i.hdr = i

theorem netTx (axb : Addr20) (dxor hdr : Byte) : Statement (.netTx axb dxor hdr) :=
  ⟨by simp [Instr.cmd, Instr.plane], by simp [Instr.cmd, Instr.op, opOfCode], by simp [Instr.cmd], rfl⟩

theorem netBg (axb : Addr20) (dxor hdr : Byte) : Statement (.netBg axb dxor hdr) :=
  ⟨by simp [Instr.cmd, Instr.plane], by simp [Instr.cmd, Instr.op, opOfCode], by simp [Instr.cmd], rfl⟩

theorem decTx (axb : Addr20) (dxor hdr : Byte) : Statement (.decTx axb dxor hdr) :=
  ⟨by simp [Instr.cmd, Instr.plane], by simp [Instr.cmd, Instr.op, opOfCode], by simp [Instr.cmd], rfl⟩

theorem decBg (axb : Addr20) (dxor hdr : Byte) : Statement (.decBg axb dxor hdr) :=
  ⟨by simp [Instr.cmd, Instr.plane], by simp [Instr.cmd, Instr.op, opOfCode], by simp [Instr.cmd], rfl⟩

theorem encTx (axb : Addr20) (dxor hdr : Byte) : Statement (.encTx axb dxor hdr) :=
  ⟨by simp [Instr.cmd, Instr.plane], by simp [Instr.cmd, Instr.op, opOfCode], by simp [Instr.cmd], rfl⟩

theorem encBg (axb : Addr20) (dxor hdr : Byte) : Statement (.encBg axb dxor hdr) :=
  ⟨by simp [Instr.cmd, Instr.plane], by simp [Instr.cmd, Instr.op, opOfCode], by simp [Instr.cmd], rfl⟩

end Sys2Proof.Laws.CmdByte
end

