-- ==== Sys2Proof/Tests/Slice0.lean ====
section
/-! SUPPORT. Tests against the spec's own vectors (95_test_vectors.md), the smoke tests of WellFormed, and for every
statement with hypotheses a witness that meets them. -/

namespace Sys2Proof.Tests

open Sys2Proof Sys2Proof.Machine

/-! ### Helpers -/

/-- The reset state with buffers bound and a command issued. -/
def issued (len : Nat) (src dst : Memory) (desc : Word) (a : Nat) : State :=
  (State.reset.bindBuffers len src dst).issue desc a

/-- The response, DST and BUSY of the next state a step answers. -/
def answer (s : State) : Option (Option Response × Memory × Bool) :=
  match step s with
  | .next t => some (t.response, t.dst, t.busy)
  | _ => none

/-- The response and the buffers of the host after a run. -/
def hostAnswer : Host.Outcome HostSide Fault Refusal → Option (Option Response × List HostBuffer)
  | .next h => some (h.block.response, h.buffers)
  | _ => none

/-! ### Decoding: words written out bit by bit from R53 and R57 -/

-- NET.TX, V-B: AXB 12345 (hdr, dxor, axb, cmd from the top)
theorem test_decode_netTx :
    decode (0#20 ++ 0x00#8 ++ 0x00#8 ++ 0x12345#20 ++ 0b00000000#8) = .ok (.netTx 0x12345 0 0) := by decide

-- NET.BG, V-B: 0x000000000fffff01
theorem test_decode_netBg : decode 0x000000000fffff01#64 = .ok (.netBg 0xfffff 0 0) := by decide

-- DEC.TX, V-C
theorem test_decode_decTx :
    decode (0#20 ++ 0x00#8 ++ 0x35#8 ++ 0x12345#20 ++ 0b00000010#8) = .ok (.decTx 0x12345 0x35 0) := by decide

theorem test_decode_decBg : decode 0x00000005a1234503#64 = .ok (.decBg 0x12345 0x5a 0) := by decide

-- ENC.TX, V-C
theorem test_decode_encTx :
    decode (0#20 ++ 0xaa#8 ++ 0x35#8 ++ 0x00000#20 ++ 0b00000100#8) = .ok (.encTx 0 0x35 0xaa) := by decide

theorem test_decode_encBg : decode 0x00000fffffffff05#64 = .ok (.encBg 0xfffff 0xff 0xff) := by decide

-- V-C, the CONFIG_ERROR rows
theorem test_decode_reserved :
    decode 0x06#64 = .error .reservedOp ∧ decode 0x07#64 = .error .reservedOp ∧
    decode 0x08#64 = .error .reservedCmdBits ∧ decode 0x80#64 = .error .reservedCmdBits ∧
    decode 0x0000100000000002#64 = .error .reservedHighBits ∧
    decode 0x8000000000000004#64 = .error .reservedHighBits ∧
    decode 0xfffff00000000003#64 = .error .reservedHighBits := by decide

-- R63: the assembler's words
theorem test_encode_words :
    encode (.encTx 0 0x35 0xaa) = 0x00000aa350000004#64 ∧ encode (.decBg 0x12345 0x5a 0) = 0x00000005a1234503#64 := by
  decide

theorem test_reservedDesc : reservedDesc 0x0000100000000002#64 = true ∧ reservedDesc 0x05#64 = false := by decide

/-! ### WellFormed: each check refuses an ill-formed line (R62) -/

theorem smoke_axb : AsmLine.wf 20 (.net .tx 0x100000 0) = false ∧ AsmLine.wf 20 (.net .tx 0xfffff 0) = true := by
  decide

theorem smoke_address :
    AsmLine.wf 20 (.net .bg 0 0x100000) = false ∧ AsmLine.wf 21 (.net .bg 0 0x100000) = true := by decide

theorem smoke_dxor : AsmLine.wf 20 (.dec .tx 0 0x100) = false ∧ AsmLine.wf 20 (.dec .tx 0 0xff) = true := by decide

theorem smoke_hdr : AsmLine.wf 20 (.enc .bg 0 0 0x100) = false ∧ AsmLine.wf 20 (.enc .bg 0 0 0xff) = true := by decide

/-! ### The network and the byte functions: V-A, V-D, V-E -/

-- V-A2, V-A3
theorem test_net_values :
    net .tx 0x12345 = 0x012bc ∧ net .tx 0x003ff = 0x772cd ∧ net .tx 0x80000 = 0 ∧
    net .bg 0x12345 = 0xce1c3 ∧ net .bg 0x003ff = 0xcfaaf ∧ net .bg 0xfffff = 0x55555 := by decide

-- V-A4, V-A5
theorem test_addrMap_values :
    addrMap .tx (combinedXor .tx 0) 0x123456 = 0x66f9e ∧ addrMap .tx (combinedXor .tx 0x12345) 0x7ffff = 0x537a5 ∧
    addrMap .bg (combinedXor .bg 0) 0x123456 = 0x16e0f9 ∧ addrMap .bg (combinedXor .bg 0x12345) 0xfffff = 0xe405f := by
  decide

-- V-A6, R80
theorem test_netInverse_values :
    netInverse .tx 0x0704c = 0x1005d ∧ netInverse .bg 0x7f4c9 = 0xc1c5b ∧
    netByStructure .tx 0x2aaaa = 0x699f9 ∧ netByStructure .bg 0x2aaaa = 0x19a9e := by decide

-- V-D1
theorem test_decByte :
    decByte 0x35 0x1234 0x00 = 0x01#8 ∧ decByte 0x5a 0x100 0x5a = 0x00#8 ∧ decByte 0x35 0x3f 0x77 = 0x7d#8 := by decide

-- V-E1, the header boundary of each plane
theorem test_encByte :
    encByte .tx 0xaa 0x35 0x3f 0x77 = 0xa0#8 ∧ encByte .tx 0xaa 0x35 0x40 0x77 = 0x02#8 ∧
    encByte .bg 0x5c 0x00 0xff 0x12 = 0xa3#8 ∧ encByte .bg 0x5c 0x00 0x100 0x12 = 0x12#8 := by decide

/-! ### One step of every command -/

-- V-B: NET.TX 0x12345, 0x2318
theorem test_netTx_zero : answer (issued 0 [] [] 0x0000000001234500#64 0x2318) = some (some (.okAddress 0), [], false) := by
  decide

-- V-B: NET.TX with DXOR and HDR set, fields ignored; DST stays
theorem test_netTx_ignores :
    answer (issued 1 [(0, 1)] [(0, 2)] 0x00000abcd0000000#64 0) = some (some (.okAddress 0x0704c), [(0, 2)], false) := by
  decide

-- V-B: NET.BG 0x00000, 0x1c1c5b and NET.BG 0xfffff, 0x0
theorem test_netBg_high : answer (issued 0 [] [] 0x01#64 0x1c1c5b) = some (some (.okAddress 0x100000), [], false) := by
  decide

theorem test_netBg_axb : answer (issued 0 [] [] 0x000000000fffff01#64 0) = some (some (.okAddress 0x2a19c), [], false) := by
  decide

-- V-F2: tx, AXB 1005d, LEN 1 is OK; DST[0] = 0x77 ^ 0 ^ 0x35 = 0x42 (R86)
theorem test_decTx_one :
    answer (issued 1 [(0, 0x77)] [(0, 0xee)] 0x0000000351005d02#64 0) = some (some .okBuffer, [(0, 0x42)], false) := by
  decide

-- V-F2, P4 step 1: tx, AXB 0, LEN 0x100; DST stays
theorem test_decTx_range :
    answer (issued 0x100 [] [(0, 0xee)] 0x0000000350000002#64 0) = some (some .rangeFault, [(0, 0xee)], false) := by
  decide

-- V-F2: bg, AXB c1c5b, LEN 1 is OK; a byte of zero leaves no cell
theorem test_decBg_one :
    answer (issued 1 [(0, 0x5a)] [(0, 0xee)] 0x00000005ac1c5b03#64 0) = some (some .okBuffer, [], false) := by decide

-- V-F2: bg, AXB c1c5b, LEN 2
theorem test_decBg_range :
    answer (issued 2 [] [(1, 0xee)] 0x000000000c1c5b03#64 0) = some (some .rangeFault, [(1, 0xee)], false) := by decide

-- V-F2: tx, AXB 9005d, LEN 1 is OK (bit 19 of AXB ignored); the byte is a header byte, V-E1: 9f
theorem test_encTx_header :
    answer (issued 1 [(0, 0x12)] [] 0x00000aa359005d04#64 0) = some (some .okBuffer, [(0, 0x9f)], false) := by decide

-- V-F3: CONFIG_ERROR comes before RANGE_FAULT
theorem test_encTx_priority :
    answer (issued 0x100 [] [(0, 0xee)] 0x0000100000000004#64 0) = some (some .configError, [(0, 0xee)], false) := by
  decide

-- V-E1: bg, i 0, HDR 5c
theorem test_encBg_header :
    answer (issued 1 [(0, 0x99)] [] 0x000005c00c1c5b05#64 0) = some (some .okBuffer, [(0, 0x5c)], false) := by decide

-- V-F1: LEN 0
theorem test_encBg_empty : answer (issued 0 [] [] 0x05#64 0) = some (some .okBuffer, [], false) := by decide

/-! ### The host side -/

/-- Two buffers and an intermediate one of 0x100 bytes (P4, P5). -/
def smallHost : HostSide := ⟨State.reset, [⟨0x100, []⟩, ⟨0x100, []⟩, ⟨0x100, [(0, 0xee)]⟩]⟩

/-- P5's assumed table: only `dxor` 0x35 is the source's. -/
def exampleTable : VariantTable := fun v _ =>
  match v with
  | .ss91022_10 => ⟨0x00000, 0x35, 0xaa⟩
  | .ss92046_01 => ⟨0x12345, 0x00, 0x5c⟩
  | _ => default

-- P1: three queries and an illegal command; the last response is CONFIG_ERROR
theorem test_program_P1 :
    hostAnswer (smallHost.runProgram [⟨0x00#64, 0x1005d, none⟩, ⟨0x00#64, 0, none⟩, ⟨0x01#64, 0x1c1c5b, none⟩,
      ⟨0x06#64, 0, none⟩]) = some (some .configError, smallHost.buffers) := by decide

-- P5 run A: the second stage is not issued
theorem test_recrypt_stops :
    hostAnswer (smallHost.runPseudo exampleTable (.recrypt .tx (some .ss91022_10) (some .ss92046_01)) 0 1 2) =
      some (some .rangeFault, smallHost.buffers) := by decide

-- R66: the copy takes the input's length; R34, V-F2 and R86: one byte decrypted into a buffer of three
theorem test_other_lengths :
    let h : HostSide := ⟨State.reset, [⟨1, [(0, 0x77)]⟩, ⟨3, [(2, 7)]⟩]⟩
    hostAnswer (h.runPseudo exampleTable (.recrypt .tx none none) 0 2 1) =
      some (none, [⟨1, [(0, 0x77)]⟩, ⟨1, [(0, 0x77)]⟩]) ∧
    hostAnswer (h.issueCommand ⟨0x0000000351005d02#64, 0, some (0, 1)⟩) =
      some (some .okBuffer, [⟨1, [(0, 0x77)]⟩, ⟨1, [(0, 0x42)]⟩]) := by decide

-- R134
theorem test_aliased : hostAnswer (smallHost.issueCommand ⟨0x02#64, 0, some (1, 1)⟩) = none := by decide

-- R63 and R62: text to words, comments, errors
theorem test_assemble_text :
    assembleLine 20 exampleTable "ENC.TX 0x00000, 0x35, 0xaa ; P2".toList = .ok [(0x00000aa350000004, 0)] ∧
    assembleLine 20 exampleTable "NET.TX 0, 65629".toList = .ok [(0, 0x1005d)] ∧
    assembleLine 20 exampleTable "DEC.TX 0x100000, 0".toList = .error .operandOutOfRange ∧
    assembleLine 20 exampleTable "DEC.TX 0x12345".toList = .error .malformedLine := by decide

-- P5's expansion, R67's errors
theorem test_assemble_pseudo :
    assembleLine 20 exampleTable "RECRYPT.TX SS91022-10, SS92046-01".toList =
      .ok [(0x0000000350000002, 0), (0x000005c001234504, 0)] ∧
    assembleLine 20 exampleTable "RECRYPT.BG -, -".toList = .ok [] ∧
    assembleLine 20 exampleTable "ENCV.TX SS99999-99".toList = .error .configError ∧
    assembleLine 20 exampleTable "DECV.FG SS91022-10".toList = .error .configError := by decide

-- D14: the one value of the table the source gives, whatever the rest
theorem test_variantTable_dxor : (Config.variantTable .ss91022_10 .tx).dxor = 0x35#8 := rfl

-- R7
theorem test_aw : 20 ≤ Config.aw := Nat.le_add_right 20 _

/-! ### What the pipeline asks: the word is read and run as the first command after reset -/

theorem test_withFetchWord :
    decodeTableWord 64 0x03 = some (.decBg 0 0 0) ∧
    answer (State.reset.withFetchWord 64 0x03) = some (some .okBuffer, [], false) := by decide

/-! ### Witnesses: for every statement with hypotheses, values that meet them -/

theorem witness_EncodeOfDecodeIsTheDescriptor : decode 0x00000fffffffff05#64 = .ok (.encBg 0xfffff 0xff 0xff) := by
  decide

theorem witness_DecoderAcceptsExactlyTheSixCommands :
    decode 0x05#64 = .ok (.encBg 0 0 0) ∧ decode 0x06#64 = .error .reservedOp := by decide

theorem witness_StepRunsTheDecodedCommand :
    (issued 1 [(0, 1)] [] 0x0000000351005d02#64 0).issued = true ∧
    decode (issued 1 [(0, 1)] [] 0x0000000351005d02#64 0).desc = .ok (.decTx 0x1005d 0x35 0) := by decide

theorem witness_IdleStepExecutesNothing : State.reset.issued = false := rfl

/-- Each of the three causes at its boundary: DESC[3], OP = 11, DESC[44]. -/
theorem witness_ReservedDescriptorEndsWithConfigError :
    ∀ d ∈ [0x08#64, 0x06#64, 0x0000100000000000#64], (issued 0 [] [] d 0).issued = true ∧
      (d.toNat / 2 ^ 3 % 2 ^ 5 ≠ 0 ∨ d.toNat / 2 % 4 = 3 ∨ d.toNat / 2 ^ 44 ≠ 0) := by
  intro d hd
  refine ⟨rfl, ?_⟩
  simp only [List.mem_cons, List.not_mem_nil, or_false] at hd
  rcases hd with rfl | rfl | rfl <;> simp

/-- A step that ends with RANGE_FAULT, and one that ends with OK. -/
theorem witness_NonOkCommandChangesOnlyItsStatus :
    ∃ s t r, s.issued = true ∧ step s = .next t ∧ t.response = some r ∧ r.status ≠ .ok :=
  ⟨issued 0 [] [] 0x06#64 0, _, .configError, rfl, step_of_decode_error (e := .reservedOp) rfl (by decide), rfl, by decide⟩

theorem witness_BlockIsIdleAfterEveryStep :
    ∃ s t, s.issued = true ∧ step s = .next t :=
  ⟨issued 0 [] [] 0x06#64 0, _, rfl, step_of_decode_error (e := .reservedOp) rfl (by decide)⟩

theorem witness_StepWritesNoHostPort : ∃ s t, s.src = [(0, 1)] ∧ step s = .next t :=
  ⟨issued 1 [(0, 1)] [] 0x0000000001005d02#64 0, _, rfl,
    step_of_exec (i := .decTx 0x1005d 0 0) rfl (by decide) (exec_decTx_eq _ _ _ _)⟩

/-- A state that meets the invariant, with a response and a byte of DST, and its step. -/
theorem witness_StepKeepsTheInvariant : ∃ s t, s.inv = true ∧ step s = .next t :=
  ⟨{ State.reset.bindBuffers 1 [] [(0, 1)] with response := some .okBuffer }, _, by decide, step_of_not_issued rfl⟩

/-- One state for each clause: an illegal word, a query, a buffer out of range, one in range, an injective one. -/
theorem witness_StatusIsTheFirstCauseThatApplies :
    decode 0x06#64 = .error .reservedOp ∧
    decode 0x00#64 = .ok (.netTx 0 0 0) ∧
    (decode 0x02#64 = .ok (.decTx 0 0 0) ∧ ¬Claims.InRange .tx 0 2) ∧
    (decode 0x0000000001005d02#64 = .ok (.decTx 0x1005d 0 0) ∧ Claims.InRange .tx 0x1005d 1) ∧
    (decode 0x0000000001005d04#64 = .ok (.encTx 0x1005d 0 0) ∧ Claims.Injective .tx 0x1005d 1) := by
  unfold Claims.InRange Claims.Injective; decide

/-- A tx buffer longer than the network is in range, and its map is not injective: `J(0) = J(2^19)` (V-F2). -/
theorem witness_NonInjectiveEncryptIsRefused :
    Claims.InRange .tx 0 0x80001 ∧ ¬Claims.Injective .tx 0 0x80001 := by
  constructor
  · intro i _
    have := addrMap_tx_lt (0 ^^^ planeConst .tx) i
    omega
  · intro h
    have := h 0 (by omega) 0x80000 (by omega) (by decide)
    omega

theorem witness_StatusCodesAndWhoRaisesThem :
    ∃ i s t r, exec i s = .next t ∧ t.response = some r ∧ r.status = .rangeFault := by
  refine ⟨.decTx 0 0 0, State.reset.bindBuffers 2 [] [], _, .rangeFault, exec_decTx_eq _ _ _ _, ?_, rfl⟩
  decide

theorem witness_StatusCodesAndWhoRaisesThem_collision :
    ∃ i s t r, exec i s = .next t ∧ t.response = some r ∧ r.status = .collisionRefused := by
  have hr : inRange .tx (combinedXor .tx 0) 0x80001 = true := inRange_iff.mpr witness_NonInjectiveEncryptIsRefused.1
  have hj : injective .tx (combinedXor .tx 0) 0x80001 = false := by
    rw [injective_eq_false_iff]
    intro h
    exact h 0 (by omega) 0x80000 (by omega) (by omega) (by decide)
  refine ⟨.encTx 0 0 0, State.reset.bindBuffers 0x80001 [] [], _, .collisionRefused, exec_encTx_eq _ _ _ _, ?_, rfl⟩
  rw [State.bindBuffers_len, if_pos hr, if_neg (by rw [hj]; decide)]
  rfl

/-- A decrypt of one byte changes DST. -/
theorem witness_DstChangesOnlyByAnOkBufferCommand :
    (answer (issued 1 [(0, 1)] [] 0x0000000001005d02#64 0)).map (fun x => decide (x.2.1 ≠ [])) = some true := by decide

/-- A command issued and not ended is in flight with a byte of DST; the reset state has none in flight. -/
theorem witness_ResetInMidCommandFreesOnlyDst :
    (issued 1 [] [] 0x02#64 0).inFlight = true ∧ 0 < (issued 1 [] [] 0x02#64 0).len ∧ State.reset.inFlight = false := by
  decide

theorem witness_HostEventsKeepTheInvariant :
    State.reset.inv = true ∧ Memory.wf [(0, 1), (3, 2)] = true ∧ Memory.within 4 [(0, 1), (3, 2)] = true := by decide

theorem witness_TableOrderDoesNotAffectTheNetwork : (netTable .tx).reverse.Perm (netTable .tx) := List.reverse_perm _

theorem witness_NetworkIsLinear : 2 ^ 19 - 1 < 2 ^ netBits .tx ∧ 2 ^ 20 - 1 < 2 ^ netBits .bg := by decide

theorem witness_NetworkIsPermutationThenPrefixXor : 18 < netBits .tx ∧ 19 < netBits .bg ∧ (0, 0x7f000) ∈ netTable .tx := by
  decide

theorem witness_InverseNetworkRecoversTheAddress : 0x1005d < 2 ^ 19 ∧ 0x7f4c9 < 2 ^ netBits .bg := by decide

/-- A equal to X, A equal to 0, and A a block above X. -/
theorem witness_AddressQueryCornerCases :
    (issued 0 [] [] 0 0x1005d).a = ((0 : Addr20) ^^^ 0x1005d#20).toNat ∧ (issued 0 [] [] 0 0).a = 0 ∧
    (issued 0 [] [] 0 0x1c1c5b).a = ((0 : Addr20) ^^^ 0xc1c5b#20).toNat + 1 * 2 ^ 20 := by decide

theorem witness_QueriedAddressHasTheAddressWidth : 20 ≤ 20 ∧ (issued 0 [] [] 0 0xfffff).a < 2 ^ 20 := by decide

theorem witness_UnusedFieldsAreIgnored :
    Instr.netBg 1 2 3 ∈ [Instr.netTx 1 2 3, .netBg 1 2 3] ∧
    Instr.encTx 1 2 3 ∈ [Instr.decTx 1 2 3, .decBg 1 2 3, .encTx 1 2 3, .encBg 1 2 3] := by decide

/-- One byte of each plane, in range and injective. -/
theorem witness_admitted_byte :
    Claims.InRange .tx 0x1005d 1 ∧ Claims.Injective .tx 0x1005d 1 ∧ Claims.InRange .bg 0xc1c5b 1 ∧
    Claims.Injective .bg 0xc1c5b 1 := by
  unfold Claims.InRange Claims.Injective; decide

theorem witness_DecryptOfABufferInRange :
    Claims.InRange .tx 0x1005d (issued 1 [(0, 7)] [] 0 0).len ∧ Claims.InRange .bg 0xc1c5b (issued 1 [(0, 7)] [] 0 0).len :=
  ⟨witness_admitted_byte.1, witness_admitted_byte.2.2.1⟩

theorem witness_EncryptOfAnAdmittedBuffer :
    Claims.InRange .tx 0x1005d (issued 1 [(0, 7)] [] 0 0).len ∧
    Claims.Injective .tx 0x1005d (issued 1 [(0, 7)] [] 0 0).len ∧
    Claims.InRange .bg 0xc1c5b (issued 1 [(0, 7)] [] 0 0).len :=
  ⟨witness_admitted_byte.1, witness_admitted_byte.2.1, witness_admitted_byte.2.2.1⟩

/-- A whole tx image is in range for every AXB. -/
theorem witness_tx_image_in_range (axb : Addr20) : Claims.InRange .tx axb (2 ^ 19) := fun i _ => addrMap_tx_lt _ i

theorem witness_BufferOutOfRangeEndsWithRangeFault : ¬Claims.InRange .tx 0 0x100 ∧ ¬Claims.InRange .bg 0xc1c5b 2 :=
  ⟨fun h => absurd (h 0 (by omega)) (by decide), fun h => absurd (h 1 (by omega)) (by decide)⟩

/-- A whole tx image, its addresses in descending order. -/
theorem witness_StepOrderDoesNotAffectDst :
    Memory.wf State.reset.dst = true ∧ (List.range (2 ^ 19)).reverse.Perm (List.range (2 ^ 19)) ∧
    Claims.InRange .tx 0 (2 ^ 19) :=
  ⟨rfl, List.reverse_perm _, witness_tx_image_in_range 0⟩

/-- Two states that differ in DST, BUSY, the last response and the counter alone. -/
theorem witness_ResponseDependsOnTheCommandAlone :
    ∃ s s' t t' : State, s ≠ s' ∧ s.issued = true ∧ s'.issued = true ∧ s'.desc = s.desc ∧ s'.a = s.a ∧ s'.len = s.len ∧
      (∀ k < s.len, Memory.read s'.src k = Memory.read s.src k) ∧ step s = .next t ∧ step s' = .next t' := by
  refine ⟨issued 1 [(0, 1)] [] 0x0000000001005d02#64 0,
    { issued 1 [(0, 1)] [(0, 9)] 0x0000000001005d02#64 0 with busy := true, response := some .okBuffer, freeTick := 3 },
    _, _, by decide, rfl, rfl, rfl, rfl, rfl, fun _ _ => rfl,
    step_of_exec (i := .decTx 0x1005d 0 0) rfl (by decide) (exec_decTx_eq _ _ _ _),
    step_of_exec (i := .decTx 0x1005d 0 0) rfl (by decide) (exec_decTx_eq _ _ _ _)⟩

/-- Two plaintexts that differ at the header byte 0 alone. -/
theorem witness_EncryptDiscardsTheHeaderPlaintext :
    ∃ s s' t t' : State, s.src ≠ s'.src ∧ s'.len = s.len ∧
      (∀ k, hdrLen .tx ≤ k → Memory.read s'.src k = Memory.read s.src k) ∧
      exec (Instr.ofFields .enc .tx 0x1005d 0 0x55) s = .next t ∧
      exec (Instr.ofFields .enc .tx 0x1005d 0 0x55) s' = .next t' := by
  refine ⟨State.reset.bindBuffers 1 [(0, 1)] [], State.reset.bindBuffers 1 [(0, 2)] [], _, _, by decide, rfl, ?_,
    exec_encTx_eq 0x1005d 0 0x55 _, exec_encTx_eq 0x1005d 0 0x55 _⟩
  intro k hk
  have : k ≠ 0 := by rintro rfl; exact absurd hk (by decide)
  simp [Memory.read_cons, this]

/-- The boundaries of every range of lengths. -/
theorem witness_AdmissibleLengths :
    (2 ≤ 2 ∧ 2 ≤ 0x40000) ∧ (2 ≤ 0x40000 ∧ 0x40000 ≤ 0x40000) ∧ 2 ^ 19 < 0x80001 ∧ 0x80000 ≤ 2 ^ 19 ∧
    (2 ≤ 2 ∧ 2 ≤ 0x80000) ∧ (2 ≤ 0x80000 ∧ 0x80000 ≤ 0x80000) := by decide

theorem witness_EmptyBufferIsOk : State.reset.len = 0 := rfl

theorem witness_TxImageOfFullLengthCompletes : (issued (2 ^ 19) [] [] 0 0).len = 2 ^ 19 := rfl

/-- No block, and two blocks. -/
theorem witness_BgImageOfWholeBlocksCompletes :
    State.reset.len = 0 * 2 ^ 20 ∧ (issued 0x200000 [] [] 0 0).len = 2 * 2 ^ 20 := by decide

/-- One byte beyond the network, and the one address that then repeats. -/
theorem witness_TxImageBeyondTheNetwork :
    2 ^ 19 < (issued 0x80001 [] [] 0 0).len ∧ 0 + 2 ^ 19 < (issued 0x80001 [] [] 0 0).len := by decide

theorem witness_DecryptThenEncryptReproducesTheCiphertext :
    Claims.InRange .tx 0x1005d (issued 1 [(0, 7)] [] 0 0).len ∧ Claims.Injective .tx 0x1005d (issued 1 [(0, 7)] [] 0 0).len :=
  ⟨witness_admitted_byte.1, witness_admitted_byte.2.1⟩

theorem witness_EncryptThenDecryptReproducesThePlaintext :
    Claims.InRange .bg 0xc1c5b (issued 1 [(0, 7)] [] 0 0).len ∧ Claims.Injective .bg 0xc1c5b (issued 1 [(0, 7)] [] 0 0).len :=
  witness_admitted_byte.2.2

theorem witness_CrossVariantReencryptionKeepsTheImage :
    Claims.InRange .tx 0x1005d 1 ∧ Claims.InRange .tx 0x9005d 1 ∧ Claims.Injective .tx 0x9005d 1 := by
  unfold Claims.InRange Claims.Injective; decide

theorem witness_AssembledLineDecodesToItsCommand :
    AsmLine.wf 20 (.enc .tx 0xfffff 0xff 0xff) = true ∧ AsmLine.wf 20 (.enc .tx 0x100000 0 0) = false := by decide

theorem witness_RecryptWithoutVariantsCopies :
    smallHost.buffers[0]? = some ⟨0x100, []⟩ ∧ smallHost.buffers[2]? = some ⟨0x100, [(0, 0xee)]⟩ := by
  decide

theorem witness_RecryptStopsAfterAFailedFirstStage :
    (0 : Nat) ≠ 1 ∧ smallHost.buffers[0]? = some ⟨0x100, []⟩ ∧ smallHost.buffers[1]? = some ⟨0x100, []⟩ ∧
    ¬Claims.InRange .tx (exampleTable .ss91022_10 .tx).axb 0x100 :=
  ⟨by decide, rfl, rfl, fun h => absurd (h 0 (by omega)) (by decide)⟩

/-- Three buffers of one byte and a table whose AXB admits that length. -/
theorem witness_RecryptReencryptsTheInput :
    ∃ (h : HostSide) (vt : VariantTable), h.buffers[0]? = some ⟨1, [(0, 5)]⟩ ∧ h.buffers[1]? = some ⟨1, []⟩ ∧
      h.buffers[2]? = some ⟨1, []⟩ ∧ Claims.InRange .tx (vt .ss91022_10 .tx).axb 1 ∧
      Claims.InRange .tx (vt .ss92046_01 .tx).axb 1 ∧ Claims.Injective .tx (vt .ss92046_01 .tx).axb 1 :=
  ⟨⟨State.reset, [⟨1, [(0, 5)]⟩, ⟨1, []⟩, ⟨1, []⟩]⟩, fun _ _ => ⟨0x1005d, 0x35, 0xaa⟩, rfl, rfl, rfl,
    witness_admitted_byte.1, witness_admitted_byte.1, witness_admitted_byte.2.1⟩

theorem witness_UnknownVariantIsAConfigError :
    "SS99999-99".toList ≠ [] ∧ (∀ c ∈ "SS99999-99".toList, c ≠ ';' ∧ c ≠ ',' ∧ isSpace c = false) ∧
    "SS99999-99".toList ∉
      ["SS91022-10".toList, "SS92046-01".toList, "SS92047-01".toList, "SS92048-01".toList] := by
  have h : "SS99999-99".toList = ['S', 'S', '9', '9', '9', '9', '9', '-', '9', '9'] := rfl
  rw [h]
  refine ⟨by simp, by simp [isSpace], by simp⟩

/-- Each clause: a byte in range, one in range and injective, a buffer out of range. -/
theorem witness_RecryptWithOneVariantIsOneStage :
    (0 : Nat) ≠ 1 ∧ smallHost.buffers[0]? = some ⟨0x100, []⟩ ∧ smallHost.buffers[1]? = some ⟨0x100, []⟩ ∧
    ¬Claims.InRange .tx (exampleTable .ss91022_10 .tx).axb 0x100 ∧
    ∃ (h : HostSide) (vt : VariantTable), h.buffers[0]? = some ⟨1, [(0, 5)]⟩ ∧ h.buffers[1]? = some ⟨1, []⟩ ∧
      Claims.InRange .tx (vt .ss91022_10 .tx).axb 1 ∧ Claims.Injective .tx (vt .ss91022_10 .tx).axb 1 :=
  ⟨by decide, rfl, rfl, witness_RecryptStopsAfterAFailedFirstStage.2.2.2,
    ⟨State.reset, [⟨1, [(0, 5)]⟩, ⟨1, []⟩]⟩, fun _ _ => ⟨0x1005d, 0x35, 0xaa⟩, rfl, rfl,
    witness_admitted_byte.1, witness_admitted_byte.2.1⟩

/-- A known and an unknown name, and no variant and an unknown name. -/
theorem witness_RecryptOfAnUnknownVariantIsAConfigError :
    ("SS91022-10".toList ≠ [] ∧ "X".toList ≠ [] ∧
      (∀ c ∈ "SS91022-10".toList ++ "X".toList, c ≠ ';' ∧ c ≠ ',' ∧ isSpace c = false)) ∧
    "X".toList ∉ ["-".toList, "SS91022-10".toList, "SS92046-01".toList, "SS92047-01".toList, "SS92048-01".toList] := by
  refine ⟨⟨by simp, by simp, ?_⟩, by simp⟩
  have h : "SS91022-10".toList ++ "X".toList = ['S', 'S', '9', '1', '0', '2', '2', '-', '1', '0', 'X'] := rfl
  rw [h]
  simp [isSpace]

theorem witness_UnknownPlaneSuffixIsAConfigError :
    (∀ c ∈ "FG".toList, c ≠ ';' ∧ isSpace c = false) ∧ "FG".toList ≠ "TX".toList ∧ "FG".toList ≠ "BG".toList := by
  simp [isSpace]

/-- A command with ports that ends with OK, and one that does not. -/
theorem witness_HostCommandWritesOnlyItsDestination :
    (hostAnswer ((⟨State.reset, [⟨1, [(0, 0x77)]⟩, ⟨3, []⟩]⟩ : HostSide).issueCommand
      ⟨0x0000000351005d02#64, 0, some (0, 1)⟩)).map Prod.fst = some (some .okBuffer) ∧
    (hostAnswer (smallHost.issueCommand ⟨0x06#64, 0, some (0, 1)⟩)).map Prod.fst = some (some .configError) := by decide

end Sys2Proof.Tests
end

/-! PROOFS. The statements of family 10_state: what a step leaves behind, what its answer depends on, and the tables of the
network read one bit at a time. -/

namespace Sys2Proof.Machine

/-! ### A step that runs a command -/

/-- An issued legal descriptor runs as its command, on the accepted state (R13, R58). -/
theorem step_of_decode_ok {s : State} {i : Instr} (h : s.issued = true) (hd : decode s.desc = .ok i) :
    step s = exec i s.accept := by
  simp [step, h, hd]

/-- Settles O6: the accepted state is the state with the valid line taken, BUSY 1 and no response. -/
theorem stepRunsTheDecodedCommand : Obligations.StepRunsTheDecodedCommand :=
  fun _ _ h hd => step_of_decode_ok h hd

/-! ### What a step leaves behind -/

/-- However a command ends, it leaves the state it started from with a response, BUSY 0 and a DST that is in canonical
form and below LEN if the old one was. -/
theorem exec_eq_endOk {i : Instr} {s t : State} (h : exec i s = .next t) :
    ∃ r d, t = s.endOk r d ∧ (Memory.wf s.dst = true → Memory.wf d = true) ∧
      (Memory.within s.len s.dst = true → Memory.within s.len d = true) := by
  rcases exec_cases h with ⟨j, rfl⟩ | ⟨d, rfl, hwf, hin⟩ | rfl | rfl
  · exact ⟨_, _, rfl, id, id⟩
  · exact ⟨_, _, rfl, hwf, hin⟩
  · exact ⟨_, _, State.endNonOk_eq_endOk s _, id, id⟩
  · exact ⟨_, _, State.endNonOk_eq_endOk s _, id, id⟩

/-- A step is an idle step, or it takes the issued command and ends it as `exec_eq_endOk` says; CONFIG_ERROR too is such
an end, with the old DST. -/
theorem step_eq_idle_or_endOk {s t : State} (h : step s = .next t) :
    (s.issued = false ∧ t = s.idle) ∨
    (s.issued = true ∧ ∃ r d, t = s.accept.endOk r d ∧ (Memory.wf s.dst = true → Memory.wf d = true) ∧
      (Memory.within s.len s.dst = true → Memory.within s.len d = true)) := by
  rcases step_cases h with hidle | ⟨hs, -, rfl⟩ | ⟨hs, i, -, he⟩
  · exact .inl hidle
  · exact .inr ⟨hs, _, _, State.endNonOk_eq_endOk s.accept _, id, id⟩
  · exact .inr ⟨hs, exec_eq_endOk he⟩

/-- Settles O19: an idle step touches no buffer, and a command keeps SRC and LEN, and DST in canonical form below LEN;
both leave BUSY 0 and nothing issued. -/
theorem stepKeepsTheInvariant : Obligations.StepKeepsTheInvariant := by
  intro s t hinv hstep
  obtain ⟨hsrc, hsrcIn, hdst, hdstIn, -, -⟩ := s.inv_iff.mp hinv
  rw [State.inv_iff]
  rcases step_eq_idle_or_endOk hstep with ⟨-, rfl⟩ | ⟨-, r, d, rfl, hwf, hin⟩
  · exact ⟨hsrc, hsrcIn, hdst, hdstIn, rfl, fun _ => rfl⟩
  · exact ⟨hsrc, hsrcIn, hwf hdst, hin hdstIn, rfl, fun hissued => absurd hissued Bool.false_ne_true⟩

/-! ### Every command ends -/

/-- A command answers a next state from every state; none faults and none is refused (R140). -/
theorem exists_exec_eq_next (i : Instr) (s : State) : ∃ t, exec i s = .next t := by
  cases i with
  | netTx axb dxor hdr => exact ⟨_, rfl⟩
  | netBg axb dxor hdr => exact ⟨_, rfl⟩
  | decTx axb dxor hdr => exact ⟨_, exec_decTx_eq axb dxor hdr s⟩
  | decBg axb dxor hdr => exact ⟨_, exec_decBg_eq axb dxor hdr s⟩
  | encTx axb dxor hdr => exact ⟨_, exec_encTx_eq axb dxor hdr s⟩
  | encBg axb dxor hdr => exact ⟨_, exec_encBg_eq axb dxor hdr s⟩

/-- A step answers a next state from every state. -/
theorem exists_step_eq_next (s : State) : ∃ t, step s = .next t := by
  cases hs : s.issued with
  | false => exact ⟨_, step_of_not_issued hs⟩
  | true =>
    cases hd : decode s.desc with
    | error e => exact ⟨_, step_of_decode_error hs hd⟩
    | ok i =>
      obtain ⟨t, he⟩ := exists_exec_eq_next i s.accept
      exact ⟨t, step_of_exec hs hd he⟩

/-- The step of an issued command answers a response. -/
theorem exists_response_of_issued {s t : State} (hs : s.issued = true) (h : step s = .next t) :
    ∃ r, t.response = some r := by
  rcases step_eq_idle_or_endOk h with ⟨hidle, -⟩ | ⟨-, r, d, rfl, -, -⟩
  · exact absurd (hidle.symm.trans hs) Bool.false_ne_true
  · exact ⟨r, rfl⟩

/-- After a step no command is in flight (R27). -/
theorem not_busy_not_issued_of_step {s t : State} (h : step s = .next t) : t.busy = false ∧ t.issued = false := by
  rcases step_eq_idle_or_endOk h with ⟨hs, rfl⟩ | ⟨-, r, d, rfl, -, -⟩
  · exact ⟨rfl, hs⟩
  · exact ⟨rfl, rfl⟩

/-- Settles O10: nothing is in flight after a step, and every issued command is answered, whatever the state. -/
theorem blockIsIdleAfterEveryStep : Obligations.BlockIsIdleAfterEveryStep := by
  intro s t h
  obtain ⟨hbusy, hissued⟩ := not_busy_not_issued_of_step h
  refine ⟨hbusy, hissued, fun d a => ?_⟩
  obtain ⟨u, hu⟩ := exists_step_eq_next (t.issue d a)
  obtain ⟨r, hr⟩ := exists_response_of_issued (State.issue_issued t d a) hu
  exact ⟨u, r, hu, hr⟩

/-! ### What the answer depends on -/

/-- Two states with the same LEN and the same bytes of SRC below it. -/
def SameSource (s s' : State) : Prop :=
  s'.len = s.len ∧ ∀ k < s.len, Memory.read s'.src k = Memory.read s.src k

/-- Two answers with one response and, on OK of a buffer command, the same bytes of DST below a length. -/
def SameAnswer (len : Nat) (t t' : State) : Prop :=
  t'.response = t.response ∧
  (t.response = some .okBuffer → ∀ k < len, Memory.read t'.dst k = Memory.read t.dst k)

theorem sameAnswer_endOk_okBuffer {len : Nat} {d d' : Memory} (s s' : State)
    (h : ∀ k < len, Memory.read d' k = Memory.read d k) :
    SameAnswer len (s.endOk .okBuffer d) (s'.endOk .okBuffer d') :=
  ⟨rfl, fun _ => h⟩

theorem sameAnswer_endOk_okAddress (len : Nat) (s s' : State) (j : Nat) (d d' : Memory) :
    SameAnswer len (s.endOk (.okAddress j) d) (s'.endOk (.okAddress j) d') :=
  ⟨rfl, fun h => by simp at h⟩

theorem sameAnswer_endNonOk (len : Nat) (s s' : State) {r : Response} (hr : r ≠ .okBuffer) :
    SameAnswer len (s.endNonOk r) (s'.endNonOk r) :=
  ⟨rfl, fun h => absurd (Option.some.inj h) hr⟩

/-- A map that is in range and injective is a bijection of the positions below LEN (R94). -/
theorem addrMap_bijOn {p : Plane} {x : Addr20} {len : Nat} (hr : inRange p x len = true)
    (hj : injective p x len = true) : Set.BijOn (addrMap p x) (Set.Iio len) (Set.Iio len) := by
  have hmaps : Set.MapsTo (addrMap p x) (Set.Iio len) (Set.Iio len) := inRange_iff.mp hr
  have hinj : Set.InjOn (addrMap p x) (Set.Iio len) := fun i hi k hk hik =>
    by_contra fun hne => injective_iff.mp hj i hi k hk hne hik
  refine ⟨hmaps, hinj, ?_⟩
  rw [← Finset.coe_Iio] at hmaps hinj ⊢
  exact Finset.surjOn_of_injOn_of_card_le _ hmaps hinj le_rfl

/-- An admitted decrypt reads SRC below LEN alone. -/
theorem read_decImage_congr {p : Plane} {x : Addr20} {dxor : Byte} {s s' : State} (h : SameSource s s')
    (hr : inRange p x s.len = true) {k : Nat} (hk : k < s.len) :
    Memory.read (decImage p x dxor s') k = Memory.read (decImage p x dxor s) k := by
  obtain ⟨hlen, hsrc⟩ := h
  rw [read_decImage (hlen ▸ hk), read_decImage hk, hsrc _ (inRange_iff.mp hr k hk)]

/-- An admitted encrypt reads SRC below LEN alone, and writes every position below LEN. -/
theorem read_encImage_congr {p : Plane} {x : Addr20} {dxor hdr : Byte} {s s' : State} (h : SameSource s s')
    (hr : inRange p x s.len = true) (hj : injective p x s.len = true) {k : Nat} (hk : k < s.len) :
    Memory.read (encImage p x dxor hdr s') k = Memory.read (encImage p x dxor hdr s) k := by
  obtain ⟨hlen, hsrc⟩ := h
  obtain ⟨i, hi, rfl⟩ := (addrMap_bijOn hr hj).surjOn hk
  rw [read_encImage (hlen ▸ hj) (hlen ▸ hi), read_encImage hj hi, hsrc i hi]

/-- `DECRYPT(P)` answers the same from the same source. -/
theorem decryptBuffer_sameAnswer {p : Plane} {axb : Addr20} {dxor : Byte} {s s' t t' : State} (h : SameSource s s')
    (ht : decryptBuffer p axb dxor s = .next t) (ht' : decryptBuffer p axb dxor s' = .next t') :
    SameAnswer s.len t t' := by
  rw [decryptBuffer_eq, Host.Outcome.next.injEq] at ht ht'
  rw [h.1] at ht'
  subst ht ht'
  split_ifs with hr
  · exact sameAnswer_endOk_okBuffer s s' fun _ hk => read_decImage_congr h hr hk
  · exact sameAnswer_endNonOk _ s s' (by decide)

/-- `ENCRYPT(P)` answers the same from the same source. -/
theorem encryptBuffer_sameAnswer {p : Plane} {axb : Addr20} {dxor hdr : Byte} {s s' t t' : State}
    (h : SameSource s s') (ht : encryptBuffer p axb dxor hdr s = .next t)
    (ht' : encryptBuffer p axb dxor hdr s' = .next t') : SameAnswer s.len t t' := by
  rw [encryptBuffer_eq, Host.Outcome.next.injEq] at ht ht'
  rw [h.1] at ht'
  subst ht ht'
  split_ifs with hr hj
  · exact sameAnswer_endOk_okBuffer s s' fun _ hk => read_encImage_congr h hr hj hk
  · exact sameAnswer_endNonOk _ s s' (by decide)
  · exact sameAnswer_endNonOk _ s s' (by decide)

/-- An address query answers the same for the same A. -/
theorem queryAddress_sameAnswer {p : Plane} {axb : Addr20} {s s' t t' : State} (len : Nat) (ha : s'.a = s.a)
    (ht : queryAddress p axb s = .next t) (ht' : queryAddress p axb s' = .next t') : SameAnswer len t t' := by
  obtain rfl := Host.Outcome.next.inj ht
  obtain rfl := Host.Outcome.next.inj ht'
  rw [ha]
  exact sameAnswer_endOk_okAddress len s s' _ _ _

/-- A command answers the same from the same A and the same source. -/
theorem exec_sameAnswer {i : Instr} {s s' t t' : State} (ha : s'.a = s.a) (h : SameSource s s')
    (ht : exec i s = .next t) (ht' : exec i s' = .next t') : SameAnswer s.len t t' := by
  cases i with
  | netTx axb dxor hdr => exact queryAddress_sameAnswer _ ha ht ht'
  | netBg axb dxor hdr => exact queryAddress_sameAnswer _ ha ht ht'
  | decTx axb dxor hdr => exact decryptBuffer_sameAnswer h ht ht'
  | decBg axb dxor hdr => exact decryptBuffer_sameAnswer h ht ht'
  | encTx axb dxor hdr => exact encryptBuffer_sameAnswer h ht ht'
  | encBg axb dxor hdr => exact encryptBuffer_sameAnswer h ht ht'

/-- Settles O40: one descriptor is CONFIG_ERROR in both states, or one command in both, whose answer depends on A and the
source alone. -/
theorem responseDependsOnTheCommandAlone : Obligations.ResponseDependsOnTheCommandAlone := by
  intro s s' t t' hs hs' hdesc ha hlen hsrc ht ht'
  change SameAnswer s.len t t'
  cases hd : decode s.desc with
  | error e =>
    rw [step_of_decode_error hs hd, Host.Outcome.next.injEq] at ht
    rw [step_of_decode_error hs' (hdesc ▸ hd), Host.Outcome.next.injEq] at ht'
    subst ht ht'
    exact sameAnswer_endNonOk _ s.accept s'.accept (by decide)
  | ok i =>
    rw [step_of_decode_ok hs hd] at ht
    rw [step_of_decode_ok hs' (hdesc ▸ hd)] at ht'
    exact exec_sameAnswer (s := s.accept) (s' := s'.accept) ha ⟨hlen, hsrc⟩ ht ht'

/-! ### The network, entry by entry -/

@[simp] theorem netOf_nil (w : Nat) : netOf [] w = 0 := rfl

/-- The loop of R74 from any start is that start XOR what the table gives. -/
theorem foldl_masks_eq_xor_netOf (table : List (Nat × Nat)) (w j : Nat) :
    table.foldl (fun j e => if w.testBit e.1 then j ^^^ e.2 else j) j = j ^^^ netOf table w := by
  induction table generalizing j with
  | nil => simp
  | cons e table ih =>
    rw [netOf, List.foldl_cons, List.foldl_cons, ih, ih]
    split_ifs <;> simp [Nat.xor_assoc]

/-- An entry adds its mask to what the rest of the table gives, if its bit of `w` is set. -/
theorem netOf_cons (e : Nat × Nat) (table : List (Nat × Nat)) (w : Nat) :
    netOf (e :: table) w = (if w.testBit e.1 then e.2 else 0) ^^^ netOf table w := by
  rw [netOf, List.foldl_cons, foldl_masks_eq_xor_netOf, Nat.zero_xor]

/-- A bit that is no entry's source leaves the network at 0. -/
theorem netOf_two_pow_of_not_mem {table : List (Nat × Nat)} {b : Nat} (h : b ∉ table.map Prod.fst) :
    netOf table (2 ^ b) = 0 := by
  induction table with
  | nil => rfl
  | cons e table ih =>
    obtain ⟨hne, hrest⟩ := not_or.mp (List.mem_cons.not.mp h)
    rw [netOf_cons, ih hrest, Nat.testBit_two_pow_of_ne hne]
    simp

/-- Where every entry has its own source bit, a single bit's image is the mask of its entry (V-A1). -/
theorem netOf_two_pow_of_mem {table : List (Nat × Nat)} (hnodup : (table.map Prod.fst).Nodup) {e : Nat × Nat}
    (he : e ∈ table) : netOf table (2 ^ e.1) = e.2 := by
  induction table with
  | nil => cases he
  | cons d table ih =>
    obtain ⟨hd, hrest⟩ := List.nodup_cons.mp hnodup
    rw [netOf_cons]
    rcases List.mem_cons.mp he with rfl | he
    · rw [Nat.testBit_two_pow_self, netOf_two_pow_of_not_mem hd]
      simp
    · have hne : e.1 ≠ d.1 := fun heq => hd (heq ▸ List.mem_map_of_mem he)
      rw [ih hrest he, Nat.testBit_two_pow_of_ne hne]
      simp

/-- Every network bit is the source of one entry (R18, R19). -/
theorem netTable_sources_perm (p : Plane) : ((netTable p).map Prod.fst).Perm (List.range (netBits p)) := by
  cases p with
  | tx => decide
  | bg => decide

/-- Every mask has the network's bits (R18, R19). -/
theorem netTable_mask_lt (p : Plane) : ∀ e ∈ netTable p, e.2 < 2 ^ netBits p := by
  cases p with
  | tx => decide
  | bg => decide

/-- Settles O21: the source bits are a permutation, so they are distinct, and a single bit meets its own entry alone. -/
theorem singleBitImagesAreTheMasks : Obligations.SingleBitImagesAreTheMasks := by
  intro p
  have hperm := netTable_sources_perm p
  have hnodup : ((netTable p).map Prod.fst).Nodup := hperm.nodup_iff.mpr List.nodup_range
  exact ⟨fun e he => ⟨netOf_two_pow_of_mem hnodup he, netTable_mask_lt p e he⟩, hperm⟩

end Sys2Proof.Machine

/-! PROOFS. The statements of family 20_memory: which buffers and ports a step and a host command write, and that the
order of the per-address steps is free. -/

namespace Sys2Proof.Machine

/-! ### The order of the per-address steps -/

/-- The steps in any order leave the same staging copy, when each writes a position of its own: the copies are in
canonical form, and each of them has the one step's byte where a step writes and the old byte elsewhere (R52, R99). -/
theorem stageAll_perm {pos : Nat → Nat} {val : Nat → Byte} {order order' : List Nat} (hperm : order.Perm order')
    (hinj : ∀ i ∈ order', ∀ j ∈ order', pos i = pos j → i = j) {staging : Memory} (hwf : Memory.wf staging = true) :
    stageAll pos val order staging = stageAll pos val order' staging := by
  have hmem : ∀ {i}, i ∈ order ↔ i ∈ order' := hperm.mem_iff
  refine Memory.ext (wf_stageAll order hwf) (wf_stageAll order' hwf) fun k => ?_
  by_cases hk : ∃ i ∈ order', pos i = k
  · obtain ⟨i, hi, rfl⟩ := hk
    have hinj' : ∀ i ∈ order, ∀ j ∈ order, pos i = pos j → i = j := fun i hi j hj =>
      hinj i (hmem.mp hi) j (hmem.mp hj)
    rw [read_stageAll_of_mem hinj' (hmem.mpr hi), read_stageAll_of_mem hinj hi]
  · have hne : ∀ i ∈ order', pos i ≠ k := fun i hi heq => hk ⟨i, hi, heq⟩
    rw [read_stageAll_of_forall_ne fun i hi => hne i (hmem.mp hi), read_stageAll_of_forall_ne hne]

/-- The decrypt steps of a buffer in range, in any order, end in the DST of the admitted decrypt. -/
theorem runSteps_decStep_of_perm {s : State} {p : Plane} {x : Addr20} {dxor : Byte} {order : List Nat}
    (hwf : Memory.wf s.dst = true) (hperm : order.Perm (List.range s.len)) (hr : inRange p x s.len = true) :
    runSteps s.len (s.decStep p x dxor) order s.dst = .ok (decImage p x dxor s) := by
  have hlt : ∀ i ∈ order, i < s.len := fun i hi => List.mem_range.mp (hperm.mem_iff.mp hi)
  have hstep : ∀ i ∈ order, s.decStep p x dxor i =
      .ok (id i, decByte dxor i (Memory.read s.src (addrMap p x i))) ∧ id i < s.len := fun i hi =>
    ⟨State.decStep_eq (inRange_iff.mp hr i (hlt i hi)), hlt i hi⟩
  rw [runSteps_eq_stageAll hstep, stageAll_perm (pos := id) hperm (fun _ _ _ _ h => h) hwf, decImage]

/-- The encrypt steps of a buffer in range with an injective map, in any order, end in the DST of the admitted
encrypt. -/
theorem runSteps_encStep_of_perm {s : State} {p : Plane} {x : Addr20} {dxor hdr : Byte} {order : List Nat}
    (hwf : Memory.wf s.dst = true) (hperm : order.Perm (List.range s.len)) (hr : inRange p x s.len = true)
    (hj : injective p x s.len = true) :
    runSteps s.len (s.encStep p x dxor hdr) order s.dst = .ok (encImage p x dxor hdr s) := by
  have hlt : ∀ i ∈ order, i < s.len := fun i hi => List.mem_range.mp (hperm.mem_iff.mp hi)
  have hinj : ∀ i ∈ List.range s.len, ∀ j ∈ List.range s.len, addrMap p x i = addrMap p x j → i = j :=
    fun i hi j hj' => (addrMap_bijOn hr hj).injOn (List.mem_range.mp hi) (List.mem_range.mp hj')
  have hstep : ∀ i ∈ order, s.encStep p x dxor hdr i =
      .ok (addrMap p x i, encByte p hdr dxor i (Memory.read s.src i)) ∧ addrMap p x i < s.len := fun i hi =>
    ⟨State.encStep_eq (hlt i hi), inRange_iff.mp hr i (hlt i hi)⟩
  rw [runSteps_eq_stageAll hstep, stageAll_perm hperm hinj hwf, encImage]

/-! ### The buffer commands by their plane -/

theorem exec_ofFields_dec (p : Plane) (axb : Addr20) (dxor hdr : Byte) (s : State) :
    exec (Instr.ofFields .dec p axb dxor hdr) s = decryptBuffer p axb dxor s := by
  cases p with
  | tx => rfl
  | bg => rfl

theorem exec_ofFields_enc (p : Plane) (axb : Addr20) (dxor hdr : Byte) (s : State) :
    exec (Instr.ofFields .enc p axb dxor hdr) s = encryptBuffer p axb dxor hdr s := by
  cases p with
  | tx => rfl
  | bg => rfl

/-- The range check of a command is the statements' `InRange` (R93). -/
theorem inRange_combinedXor_iff {p : Plane} {axb : Addr20} {len : Nat} :
    inRange p (combinedXor p axb) len = true ↔ Claims.InRange p axb len :=
  inRange_iff

/-- The collision check of a command is the statements' `Injective` (R94). -/
theorem injective_combinedXor_iff {p : Plane} {axb : Addr20} {len : Nat} :
    injective p (combinedXor p axb) len = true ↔ Claims.Injective p axb len :=
  injective_iff.trans (forall₄_congr fun _ _ _ _ => not_imp_not)

/-- A DEC in range ends with OK and the decrypted DST. -/
theorem exec_dec_of_inRange {s : State} {p : Plane} {axb : Addr20} (dxor hdr : Byte)
    (hr : Claims.InRange p axb s.len) :
    exec (Instr.ofFields .dec p axb dxor hdr) s =
      .next (s.endOk .okBuffer (decImage p (combinedXor p axb) dxor s)) := by
  rw [exec_ofFields_dec, decryptBuffer_eq, if_pos (inRange_combinedXor_iff.mpr hr)]

/-- An ENC in range with an injective map ends with OK and the encrypted DST. -/
theorem exec_enc_of_admitted {s : State} {p : Plane} {axb : Addr20} (dxor hdr : Byte)
    (hr : Claims.InRange p axb s.len) (hj : Claims.Injective p axb s.len) :
    exec (Instr.ofFields .enc p axb dxor hdr) s =
      .next (s.endOk .okBuffer (encImage p (combinedXor p axb) dxor hdr s)) := by
  rw [exec_ofFields_enc, encryptBuffer_eq, if_pos (inRange_combinedXor_iff.mpr hr),
    if_pos (injective_combinedXor_iff.mpr hj)]

/-- Settles O39: in any order each position is written by one step, so the steps end in the DST of the command, whose
own order is the ascending one. -/
theorem stepOrderDoesNotAffectDst : Obligations.StepOrderDoesNotAffectDst := by
  intro s p axb dxor hdr order hwf hperm hr
  have hr' := inRange_combinedXor_iff.mpr hr
  refine ⟨⟨_, runSteps_decStep_of_perm hwf hperm hr', exec_dec_of_inRange dxor hdr hr⟩, fun hj => ?_⟩
  exact ⟨_, runSteps_encStep_of_perm hwf hperm hr' (injective_combinedXor_iff.mpr hj),
    exec_enc_of_admitted dxor hdr hr hj⟩

/-! ### What a step writes -/

/-- Settles O11: the idle step and the end of a command write the response, BUSY, the valid line and DST alone. -/
theorem stepWritesNoHostPort : Obligations.StepWritesNoHostPort := by
  intro s t h
  rcases step_eq_idle_or_endOk h with ⟨-, rfl⟩ | ⟨-, r, d, rfl, -, -⟩
  · exact ⟨rfl, rfl, rfl, rfl, rfl⟩
  · exact ⟨rfl, rfl, rfl, rfl, rfl⟩

/-- A command whose response is not OK ends by R116. -/
theorem eq_endNonOk_of_exec {i : Instr} {s t : State} {r : Response} (h : exec i s = .next t)
    (hr : t.response = some r) (hstatus : r.status ≠ .ok) : t = s.endNonOk r := by
  rcases exec_cases h with ⟨j, rfl⟩ | ⟨d, rfl, -, -⟩ | rfl | rfl
  all_goals obtain rfl := Option.some.inj hr
  · exact absurd rfl hstatus
  · exact absurd rfl hstatus
  · rfl
  · rfl

/-- Settles O12: CONFIG_ERROR and the two statuses of a command end the accepted state by R116. -/
theorem nonOkCommandChangesOnlyItsStatus : Obligations.NonOkCommandChangesOnlyItsStatus := by
  intro s t r hs h hr hstatus
  rcases step_cases h with ⟨hidle, -⟩ | ⟨-, -, rfl⟩ | ⟨-, i, -, he⟩
  · exact absurd (hidle.symm.trans hs) Bool.false_ne_true
  · obtain rfl := Option.some.inj hr
    rfl
  · exact eq_endNonOk_of_exec he hr hstatus

/-- A command that ends with another DST ends with the OK of a buffer command. -/
theorem response_eq_okBuffer_of_dst_ne {i : Instr} {s t : State} (h : exec i s = .next t) (hdst : t.dst ≠ s.dst) :
    t.response = some .okBuffer := by
  rcases exec_cases h with ⟨j, rfl⟩ | ⟨d, rfl, -, -⟩ | rfl | rfl
  · exact absurd rfl hdst
  · rfl
  · exact absurd rfl hdst
  · exact absurd rfl hdst

/-- An address query leaves DST (R82, R83). -/
theorem dst_eq_of_op_net {i : Instr} {s t : State} (h : exec i s = .next t) (hop : i.op = .net) : t.dst = s.dst := by
  cases i with
  | netTx axb dxor hdr => obtain rfl := Host.Outcome.next.inj h; rfl
  | netBg axb dxor hdr => obtain rfl := Host.Outcome.next.inj h; rfl
  | decTx axb dxor hdr => cases hop
  | decBg axb dxor hdr => cases hop
  | encTx axb dxor hdr => cases hop
  | encBg axb dxor hdr => cases hop

/-- Settles O15: an idle step and CONFIG_ERROR leave DST, so a command ran, and it is no query and ended with OK. -/
theorem dstChangesOnlyByAnOkBufferCommand : Obligations.DstChangesOnlyByAnOkBufferCommand := by
  intro s t h hdst
  rcases step_cases h with ⟨-, rfl⟩ | ⟨-, -, rfl⟩ | ⟨hs, i, hd, he⟩
  · exact absurd rfl hdst
  · exact absurd rfl hdst
  · have hdst' : t.dst ≠ s.accept.dst := hdst
    exact ⟨hs, response_eq_okBuffer_of_dst_ne he hdst', i, hd, fun hop => hdst' (dst_eq_of_op_net he hop)⟩

/-! ### What a host command writes -/

/-- The host that has its response has it from the block's step. -/
theorem exists_step_of_awaitResponse {finish : State → HostSide} {s : State} {h' : HostSide}
    (h : awaitResponse finish s = .next h') : ∃ t, step s = .next t ∧ h' = finish t := by
  unfold awaitResponse at h
  obtain ⟨t, ht⟩ := exists_step_eq_next s
  rw [ht] at h
  exact ⟨t, ht, (Host.Outcome.next.inj h).symm⟩

/-- Everything a host command can do when it answers a next state: the block steps on the issued descriptor, with ports
of length 0 and every buffer as before, or with two different buffers bound, of which the second takes an OK result. -/
theorem HostSide.issueCommand_cases {h h' : HostSide} {c : HostCommand} (hc : h.issueCommand c = .next h') :
    (c.ports = none ∧ ∃ t, step ((h.block.bindBuffers 0 [] []).issue c.desc c.a) = .next t ∧
      h' = { h with block := t }) ∨
    ∃ x y b d, c.ports = some (x, y) ∧ x ≠ y ∧ h.buffers[x]? = some b ∧ h.buffers[y]? = some d ∧
      ∃ t, step ((h.block.bindBuffers b.len b.bytes (d.storage b.len)).issue c.desc c.a) = .next t ∧
        h' = { block := t, buffers := commitBuffers h.buffers y b.len t } := by
  unfold HostSide.issueCommand at hc
  split at hc
  next hports => exact .inl ⟨hports, exists_step_of_awaitResponse hc⟩
  next x y hports =>
    split_ifs at hc with hxy
    split at hc
    next b d hb hd => exact .inr ⟨x, y, b, d, hports, hxy, hb, hd, exists_step_of_awaitResponse hc⟩
    next => cases hc

/-- Settles O59: the issued command is answered, and what the host commits is the DST of an OK buffer command, into the
buffer bound to DST. -/
theorem hostCommandWritesOnlyItsDestination : Obligations.HostCommandWritesOnlyItsDestination := by
  intro h h' c hc
  rcases HostSide.issueCommand_cases hc with ⟨hports, t, ht, rfl⟩ | ⟨x, y, b, d, hports, hxy, hb, -, t, ht, rfl⟩
  · obtain ⟨r, hr⟩ := exists_response_of_issued (State.issue_issued _ c.desc c.a) ht
    exact ⟨Option.isSome_of_eq_some hr, fun _ => rfl, fun x y hxy => by cases hports.symm.trans hxy⟩
  · obtain ⟨r, hr⟩ := exists_response_of_issued (State.issue_issued _ c.desc c.a) ht
    refine ⟨Option.isSome_of_eq_some hr, commitBuffers_of_not_ok, fun x' y' hports' => ?_⟩
    cases hports.symm.trans hports'
    exact ⟨hxy, b, ⟨b.len, t.dst⟩, hb, fun hok => ⟨rfl, commitBuffers_of_ok hok⟩⟩

end Sys2Proof.Machine

/-! PROOFS. The statements of family 30_encoding: the descriptor and its fields, the fields a command ignores, the driver's
stages, and the assembler's lines. -/

namespace Sys2Proof.Machine

/-! ### The fields of a word as numbers (R53, R54) -/

theorem toNat_extractLsb'_eq_div_mod {n : Nat} (d : BitVec n) (k w : Nat) :
    (d.extractLsb' k w).toNat = d.toNat / 2 ^ k % 2 ^ w := by
  rw [BitVec.extractLsb'_toNat, Nat.shiftRight_eq_div_pow]

theorem fieldAxb_toNat (d : Word) : (fieldAxb d).toNat = d.toNat / 2 ^ 8 % 2 ^ 20 :=
  toNat_extractLsb'_eq_div_mod d 8 20

theorem fieldDxor_toNat (d : Word) : (fieldDxor d).toNat = d.toNat / 2 ^ 28 % 2 ^ 8 :=
  toNat_extractLsb'_eq_div_mod d 28 8

theorem fieldHdr_toNat (d : Word) : (fieldHdr d).toNat = d.toNat / 2 ^ 36 % 2 ^ 8 :=
  toNat_extractLsb'_eq_div_mod d 36 8

theorem fieldReserved_toNat (d : Word) : (fieldReserved d).toNat = d.toNat / 2 ^ 44 := by
  have hd := d.isLt
  rw [fieldReserved, toNat_extractLsb'_eq_div_mod]
  omega

theorem fieldCmdReserved_toNat (d : Word) : (fieldCmdReserved d).toNat = d.toNat / 2 ^ 3 % 2 ^ 5 :=
  toNat_extractLsb'_eq_div_mod d 3 5

theorem fieldOp_toNat (d : Word) : (fieldOp d).toNat = d.toNat / 2 % 4 :=
  toNat_extractLsb'_eq_div_mod d 1 2

theorem fieldPlane_eq_bg_iff (d : Word) : fieldPlane d = .bg ↔ d.toNat % 2 = 1 := by
  have hbit : d.getLsbD 0 = true ↔ d.toNat % 2 = 1 := by
    rw [BitVec.getLsbD, Nat.testBit_zero, decide_eq_true_iff]
  rw [← hbit, fieldPlane]
  split_ifs with h
  · exact iff_of_true rfl h
  · exact iff_of_false (by decide) h

/-- Seven fields make up a word: two words that agree in all of them are one. -/
theorem word_ext_of_fields {d d' : Word} (hreserved : fieldReserved d = fieldReserved d')
    (hhdr : fieldHdr d = fieldHdr d') (hdxor : fieldDxor d = fieldDxor d') (haxb : fieldAxb d = fieldAxb d')
    (hcmd : fieldCmdReserved d = fieldCmdReserved d') (hop : fieldOp d = fieldOp d')
    (hplane : fieldPlane d = fieldPlane d') : d = d' := by
  have hbit : d.toNat % 2 = 1 ↔ d'.toNat % 2 = 1 := by
    rw [← fieldPlane_eq_bg_iff, ← fieldPlane_eq_bg_iff, hplane]
  simp only [← BitVec.toNat_inj, fieldReserved_toNat, fieldHdr_toNat, fieldDxor_toNat, fieldAxb_toNat,
    fieldCmdReserved_toNat, fieldOp_toNat] at hreserved hhdr hdxor haxb hcmd hop
  exact BitVec.eq_of_toNat_eq (by omega)

/-! ### The word of a command (R53) -/

/-- A field widened and moved up loses no bit where the word has room for it. -/
theorem toNat_setWidth_shiftLeft {w : Nat} (x : BitVec w) {n k : Nat} (h : w + k ≤ n) :
    (x.setWidth n <<< k).toNat = x.toNat <<< k := by
  have hx : x.toNat < 2 ^ n := x.isLt.trans_le (Nat.pow_le_pow_right two_pos (by omega))
  have hk : x.toNat <<< k < 2 ^ n := by
    refine lt_of_lt_of_le ?_ (Nat.pow_le_pow_right two_pos h)
    rw [Nat.shiftLeft_eq, pow_add]
    exact Nat.mul_lt_mul_of_pos_right x.isLt (Nat.two_pow_pos k)
  rw [BitVec.toNat_shiftLeft, BitVec.toNat_setWidth, Nat.mod_eq_of_lt hx, Nat.mod_eq_of_lt hk]

theorem or_shiftLeft_eq_add {a k : Nat} (h : a < 2 ^ k) (b : Nat) : a ||| b <<< k = a + b * 2 ^ k := by
  rw [Nat.or_comm, ← Nat.shiftLeft_add_eq_or_of_lt h, Nat.shiftLeft_eq, Nat.add_comm]

/-- R53's equation in naturals. -/
theorem encode_toNat_eq_or (i : Instr) :
    (encode i).toNat = i.cmd.toNat ||| (i.axb.toNat <<< 8) ||| (i.dxor.toNat <<< 28) ||| (i.hdr.toNat <<< 36) := by
  have hcmd : (i.cmd.setWidth 64).toNat = i.cmd.toNat := BitVec.toNat_setWidth_of_le (by decide)
  rw [encode, packDesc, BitVec.toNat_or, BitVec.toNat_or, BitVec.toNat_or, hcmd,
    toNat_setWidth_shiftLeft i.axb (by decide), toNat_setWidth_shiftLeft i.dxor (by decide),
    toNat_setWidth_shiftLeft i.hdr (by decide)]

/-- The four fields of R53 do not overlap, so their word is a sum. -/
theorem encode_toNat_eq_add (i : Instr) :
    (encode i).toNat = i.cmd.toNat + i.axb.toNat * 2 ^ 8 + i.dxor.toNat * 2 ^ 28 + i.hdr.toNat * 2 ^ 36 := by
  have hcmd : i.cmd.toNat < 2 ^ 8 := i.cmd.isLt
  have haxb : i.cmd.toNat + i.axb.toNat * 2 ^ 8 < 2 ^ 28 := by have := i.axb.isLt; omega
  have hdxor : i.cmd.toNat + i.axb.toNat * 2 ^ 8 + i.dxor.toNat * 2 ^ 28 < 2 ^ 36 := by
    have := i.dxor.isLt; omega
  rw [encode_toNat_eq_or, or_shiftLeft_eq_add hcmd, or_shiftLeft_eq_add haxb, or_shiftLeft_eq_add hdxor]

/-- Each field stands at its bits of the word, and nothing above them. -/
theorem encode_toNat_fields (i : Instr) :
    (encode i).toNat % 2 ^ 8 = i.cmd.toNat ∧
    (encode i).toNat / 2 ^ 8 % 2 ^ 20 = i.axb.toNat ∧
    (encode i).toNat / 2 ^ 28 % 2 ^ 8 = i.dxor.toNat ∧
    (encode i).toNat / 2 ^ 36 % 2 ^ 8 = i.hdr.toNat ∧
    (encode i).toNat / 2 ^ 44 = 0 := by
  have hcmd := i.cmd.isLt
  have haxb := i.axb.isLt
  have hdxor := i.dxor.isLt
  have hhdr := i.hdr.isLt
  rw [encode_toNat_eq_add]
  omega

/-- Settles O4: the equation, and the fields read back from the sum. -/
theorem descriptorIsPackedByTheEquation : Obligations.DescriptorIsPackedByTheEquation :=
  fun i => ⟨encode_toNat_eq_or i, encode_toNat_fields i⟩

theorem encode_toNat_mod_cmd (i : Instr) : (encode i).toNat % 2 ^ 8 = i.cmd.toNat := (encode_toNat_fields i).1

@[simp] theorem fieldAxb_encode (i : Instr) : fieldAxb (encode i) = i.axb := by
  obtain ⟨-, haxb, -⟩ := encode_toNat_fields i
  exact BitVec.eq_of_toNat_eq ((fieldAxb_toNat _).trans haxb)

@[simp] theorem fieldDxor_encode (i : Instr) : fieldDxor (encode i) = i.dxor := by
  obtain ⟨-, -, hdxor, -⟩ := encode_toNat_fields i
  exact BitVec.eq_of_toNat_eq ((fieldDxor_toNat _).trans hdxor)

@[simp] theorem fieldHdr_encode (i : Instr) : fieldHdr (encode i) = i.hdr := by
  obtain ⟨-, -, -, hhdr, -⟩ := encode_toNat_fields i
  exact BitVec.eq_of_toNat_eq ((fieldHdr_toNat _).trans hhdr)

@[simp] theorem fieldReserved_encode (i : Instr) : fieldReserved (encode i) = 0#20 := by
  obtain ⟨-, -, -, -, hreserved⟩ := encode_toNat_fields i
  exact BitVec.eq_of_toNat_eq ((fieldReserved_toNat _).trans hreserved)

/-! ### The CMD byte of a command in its word (R54, R57) -/

/-- The law of the CMD byte holds of every command. -/
theorem cmdByte_statement (i : Instr) : Laws.CmdByte.Statement i := by
  cases i with
  | netTx axb dxor hdr => exact Laws.CmdByte.netTx axb dxor hdr
  | netBg axb dxor hdr => exact Laws.CmdByte.netBg axb dxor hdr
  | decTx axb dxor hdr => exact Laws.CmdByte.decTx axb dxor hdr
  | decBg axb dxor hdr => exact Laws.CmdByte.decBg axb dxor hdr
  | encTx axb dxor hdr => exact Laws.CmdByte.encTx axb dxor hdr
  | encBg axb dxor hdr => exact Laws.CmdByte.encBg axb dxor hdr

theorem getLsbD_encode_of_lt (i : Instr) {k : Nat} (h : k < 8) : (encode i).getLsbD k = i.cmd.getLsbD k := by
  rw [BitVec.getLsbD, BitVec.getLsbD, ← encode_toNat_mod_cmd, Nat.testBit_mod_two_pow, decide_eq_true h,
    Bool.true_and]

/-- A part of the low byte of the word is that part of the CMD byte. -/
theorem extractLsb'_encode_of_le (i : Instr) {k w : Nat} (h : k + w ≤ 8) :
    (encode i).extractLsb' k w = i.cmd.extractLsb' k w := by
  ext j hj
  rw [BitVec.getElem_extractLsb', BitVec.getElem_extractLsb', getLsbD_encode_of_lt i (by omega)]

@[simp] theorem fieldCmdReserved_encode (i : Instr) : fieldCmdReserved (encode i) = 0#5 := by
  obtain ⟨-, -, hreserved, -⟩ := cmdByte_statement i
  rw [fieldCmdReserved, extractLsb'_encode_of_le i (by decide), hreserved]

@[simp] theorem opOfCode_fieldOp_encode (i : Instr) : opOfCode (fieldOp (encode i)) = some i.op := by
  obtain ⟨-, hop, -, -⟩ := cmdByte_statement i
  rw [fieldOp, extractLsb'_encode_of_le i (by decide), hop]

@[simp] theorem fieldPlane_encode (i : Instr) : fieldPlane (encode i) = i.plane := by
  obtain ⟨hplane, -, -, -⟩ := cmdByte_statement i
  rw [fieldPlane, getLsbD_encode_of_lt i (by decide)]
  split_ifs with h
  · exact (hplane.mp h).symm
  · cases hp : i.plane with
    | tx => rfl
    | bg => exact absurd (hplane.mpr hp) h

/-! ### The command of an operation, a plane and three operands -/

section
variable (o : Op) (p : Plane) (axb : Addr20) (dxor hdr : Byte)

@[simp] theorem op_ofFields : (Instr.ofFields o p axb dxor hdr).op = o := by cases o <;> cases p <;> rfl
@[simp] theorem plane_ofFields : (Instr.ofFields o p axb dxor hdr).plane = p := by cases o <;> cases p <;> rfl
@[simp] theorem axb_ofFields : (Instr.ofFields o p axb dxor hdr).axb = axb := by cases o <;> cases p <;> rfl
@[simp] theorem dxor_ofFields : (Instr.ofFields o p axb dxor hdr).dxor = dxor := by cases o <;> cases p <;> rfl
@[simp] theorem hdr_ofFields : (Instr.ofFields o p axb dxor hdr).hdr = hdr := by cases o <;> cases p <;> rfl

end

@[simp] theorem ofFields_self (i : Instr) : Instr.ofFields i.op i.plane i.axb i.dxor i.hdr = i := by
  obtain ⟨-, -, -, hfields⟩ := cmdByte_statement i
  exact hfields

/-! ### The decoder -/

/-- What the decoder accepts, and as what (R58). -/
theorem decode_eq_ok_iff {d : Word} {i : Instr} : decode d = .ok i ↔
    fieldReserved d = 0#20 ∧ fieldCmdReserved d = 0#5 ∧ opOfCode (fieldOp d) = some i.op ∧
      fieldPlane d = i.plane ∧ fieldAxb d = i.axb ∧ fieldDxor d = i.dxor ∧ fieldHdr d = i.hdr := by
  constructor
  · intro h
    unfold decode at h
    split_ifs at h with hres hcmd
    split at h
    next => cases h
    next o ho =>
      obtain rfl := Except.ok.inj h
      simp [ho, not_not.mp hres, not_not.mp hcmd]
  · rintro ⟨hres, hcmd, hop, hplane, haxb, hdxor, hhdr⟩
    simp [decode, hres, hcmd, hop, hplane, haxb, hdxor, hhdr]

/-- Every command is read back from its word. -/
theorem decode_encode (i : Instr) : decode (encode i) = .ok i := by
  simp [decode_eq_ok_iff]

/-- Settles O2: every field of the word of a command is the command's, and the reserved ones are 0. -/
theorem decodeOfEncodeIsTheCommand : Obligations.DecodeOfEncodeIsTheCommand := decode_encode

/-- No two `OP` codes name one operation (R54). -/
theorem opOfCode_injective {c c' : BitVec 2} {o : Op} (h : opOfCode c = some o) (h' : opOfCode c' = some o) :
    c = c' := by
  have hinj : ∀ c c' : BitVec 2, (opOfCode c).isSome → opOfCode c = opOfCode c' → c = c' := by decide
  exact hinj c c' (Option.isSome_of_eq_some h) (h.trans h'.symm)

/-- One command has one word. -/
theorem eq_of_decode_eq_ok {d d' : Word} {i : Instr} (h : decode d = .ok i) (h' : decode d' = .ok i) : d = d' := by
  obtain ⟨hres, hcmd, hop, hplane, haxb, hdxor, hhdr⟩ := decode_eq_ok_iff.mp h
  obtain ⟨hres', hcmd', hop', hplane', haxb', hdxor', hhdr'⟩ := decode_eq_ok_iff.mp h'
  exact word_ext_of_fields (hres.trans hres'.symm) (hhdr.trans hhdr'.symm) (hdxor.trans hdxor'.symm)
    (haxb.trans haxb'.symm) (hcmd.trans hcmd'.symm) (opOfCode_injective hop hop') (hplane.trans hplane'.symm)

/-- Settles O3: the descriptor and the word of its command decode to one command, so they are one word. -/
theorem encodeOfDecodeIsTheDescriptor : Obligations.EncodeOfDecodeIsTheDescriptor :=
  fun _ i h => eq_of_decode_eq_ok (decode_encode i) h

/-- Every `OP` code but 11 names an operation (R54). -/
theorem exists_opOfCode_eq_some_iff (c : BitVec 2) : (∃ o, opOfCode c = some o) ↔ c.toNat ≠ 3 := by
  rw [← Option.isSome_iff_exists]
  revert c
  decide

/-- The decoder accepts a word exactly when none of R59's three causes applies. -/
theorem exists_decode_eq_ok_iff (d : Word) : (∃ i, decode d = .ok i) ↔
    ¬(d.toNat / 2 ^ 3 % 2 ^ 5 ≠ 0 ∨ d.toNat / 2 % 4 = 3 ∨ d.toNat / 2 ^ 44 ≠ 0) := by
  rw [← fieldCmdReserved_toNat, ← fieldOp_toNat, ← fieldReserved_toNat]
  constructor
  · rintro ⟨i, h⟩
    obtain ⟨hres, hcmd, hop, -⟩ := decode_eq_ok_iff.mp h
    have hop3 := (exists_opOfCode_eq_some_iff _).mp ⟨_, hop⟩
    simp [hres, hcmd, hop3]
  · intro h
    obtain ⟨hcmd, hop3, hres⟩ : fieldCmdReserved d = 0#5 ∧ (fieldOp d).toNat ≠ 3 ∧ fieldReserved d = 0#20 := by
      simpa [not_or, ← BitVec.toNat_inj] using h
    obtain ⟨o, ho⟩ := (exists_opOfCode_eq_some_iff _).mpr hop3
    exact ⟨Instr.ofFields o (fieldPlane d) (fieldAxb d) (fieldDxor d) (fieldHdr d),
      decode_eq_ok_iff.mpr (by simp [hres, hcmd, ho])⟩

/-- A word is illegal exactly when it is no command (R60). -/
theorem exists_decode_eq_error_iff (d : Word) : (∃ e, decode d = .error e) ↔ ¬∃ i, decode d = .ok i := by
  cases decode d with
  | ok i => simp
  | error e => simp

/-- Settles O5: the three causes of R59 in the bits of the low byte and of 63:44; the CMD value is the low byte because the
word is that of its command. -/
theorem decoderAcceptsExactlyTheSixCommands : Obligations.DecoderAcceptsExactlyTheSixCommands := by
  intro d
  refine ⟨?_, ?_, fun i h => ?_⟩
  · rw [exists_decode_eq_ok_iff]
    omega
  · rw [exists_decode_eq_error_iff, exists_decode_eq_ok_iff, not_not]
  · rw [← encodeOfDecodeIsTheDescriptor d i h, encode_toNat_mod_cmd]

/-- Settles O8: a word of R59 does not decode, and the step then ends the accepted state with CONFIG_ERROR. -/
theorem reservedDescriptorEndsWithConfigError : Obligations.ReservedDescriptorEndsWithConfigError := by
  intro s hs hreserved
  obtain ⟨e, hd⟩ : ∃ e, decode s.desc = .error e := by
    rw [exists_decode_eq_error_iff, exists_decode_eq_ok_iff, not_not]
    exact hreserved
  exact step_of_decode_error hs hd

/-- Settles O1: nine words, decoded. -/
theorem specWordsDecodeToTheirCommands : Obligations.SpecWordsDecodeToTheirCommands := by
  unfold Obligations.SpecWordsDecodeToTheirCommands
  decide

/-! ### The fields and ports a command ignores (R56) -/

/-- A query reads no buffer: on other buffers it answers the same, those buffers in place. -/
theorem queryAddress_bindBuffers (p : Plane) (axb : Addr20) (s : State) (len : Nat) (src dst : Memory) :
    ∃ t, queryAddress p axb s = .next t ∧
      queryAddress p axb (s.bindBuffers len src dst) = .next (t.bindBuffers len src dst) :=
  ⟨_, rfl, rfl⟩

/-- `DECRYPT(P)` does not read A. -/
theorem decryptBuffer_with_a (p : Plane) (axb : Addr20) (dxor : Byte) (s : State) (a : Nat) :
    ∃ t, decryptBuffer p axb dxor s = .next t ∧ decryptBuffer p axb dxor { s with a := a } = .next { t with a := a } := by
  refine ⟨_, decryptBuffer_eq p axb dxor s, ?_⟩
  rw [decryptBuffer_eq]
  split_ifs
  · rfl
  · rfl

/-- `ENCRYPT(P)` does not read A. -/
theorem encryptBuffer_with_a (p : Plane) (axb : Addr20) (dxor hdr : Byte) (s : State) (a : Nat) :
    ∃ t, encryptBuffer p axb dxor hdr s = .next t ∧
      encryptBuffer p axb dxor hdr { s with a := a } = .next { t with a := a } := by
  refine ⟨_, encryptBuffer_eq p axb dxor hdr s, ?_⟩
  rw [encryptBuffer_eq]
  split_ifs
  · rfl
  · rfl
  · rfl

/-- Settles O33: the arms of `exec` drop the fields, and the three procedures do not read the ports. -/
theorem unusedFieldsAreIgnored : Obligations.UnusedFieldsAreIgnored := by
  intro s axb dxor hdr dxor' hdr' a len src dst
  refine ⟨⟨rfl, rfl, rfl, rfl⟩, fun i hi => ?_, fun i hi => ?_⟩
  · simp only [List.mem_cons, List.not_mem_nil, or_false] at hi
    rcases hi with rfl | rfl
    · exact queryAddress_bindBuffers .tx axb s len src dst
    · exact queryAddress_bindBuffers .bg axb s len src dst
  · simp only [List.mem_cons, List.not_mem_nil, or_false] at hi
    rcases hi with rfl | rfl | rfl | rfl
    · exact decryptBuffer_with_a .tx axb dxor s a
    · exact decryptBuffer_with_a .bg axb dxor s a
    · exact encryptBuffer_with_a .tx axb dxor hdr s a
    · exact encryptBuffer_with_a .bg axb dxor hdr s a

/-! ### The driver's stages (R64 to R66) -/

/-- R86 and R85 in one closed form (R98). -/
theorem decByte_eq (dxor : Byte) (i : Nat) (c : Byte) :
    decByte dxor i c = c ^^^ BitVec.ofNat 8 (i % 256) ^^^ dxor := by
  have hlow : i &&& 0xff = i % 256 := Nat.and_two_pow_sub_one_eq_mod i 8
  rw [decByte, dataMask, lowByte, hlow, BitVec.xor_assoc]

/-- R88 to R90 in one closed form (R98). -/
theorem encByte_eq (p : Plane) (hdr dxor : Byte) (i : Nat) (v : Byte) :
    encByte p hdr dxor i v = (if i < hdrLen p then hdr else v) ^^^ BitVec.ofNat 8 (i % 256) ^^^ dxor :=
  decByte_eq dxor i (encValue p hdr i v)

/-- `o` has the length of `b` and holds its plaintext under the parameters `v` (R98). -/
def IsPlaintextOf (p : Plane) (v : VariantParams) (b o : HostBuffer) : Prop :=
  o.len = b.len ∧ ∀ i < b.len, Memory.read o.bytes i =
    Memory.read b.bytes (addrMap p (v.axb ^^^ planeConst p) i) ^^^ BitVec.ofNat 8 (i % 256) ^^^ v.dxor

/-- `o` has the length of `b` and holds its ciphertext under the parameters `v`, HDR in the header region (R98). -/
def IsCiphertextOf (p : Plane) (v : VariantParams) (b o : HostBuffer) : Prop :=
  o.len = b.len ∧ ∀ i < b.len, Memory.read o.bytes (addrMap p (v.axb ^^^ planeConst p) i) =
    (if i < hdrLen p then v.hdr else Memory.read b.bytes i) ^^^ BitVec.ofNat 8 (i % 256) ^^^ v.dxor

/-- The admitted decrypt of a bound buffer is its plaintext. -/
theorem isPlaintextOf_decImage {p : Plane} {v : VariantParams} {b : HostBuffer} {s : State} (hlen : s.len = b.len)
    (hsrc : s.src = b.bytes) : IsPlaintextOf p v b ⟨b.len, decImage p (combinedXor p v.axb) v.dxor s⟩ := by
  refine ⟨rfl, fun i hi => ?_⟩
  rw [← hsrc, ← decByte_eq]
  exact read_decImage (hlen ▸ hi)

/-- The admitted encrypt of a bound buffer is its ciphertext. -/
theorem isCiphertextOf_encImage {p : Plane} {v : VariantParams} {b : HostBuffer} {s : State} (hlen : s.len = b.len)
    (hsrc : s.src = b.bytes) (hj : Claims.Injective p v.axb b.len) :
    IsCiphertextOf p v b ⟨b.len, encImage p (combinedXor p v.axb) v.dxor v.hdr s⟩ := by
  refine ⟨rfl, fun i hi => ?_⟩
  rw [← hsrc, ← encByte_eq]
  exact read_encImage (injective_combinedXor_iff.mpr (hlen ▸ hj)) (hlen ▸ hi)

/-- `h'` is `h` after a command that ended OK and left `o` in the buffer `y`. -/
def WroteOk (h h' : HostSide) (y : Nat) (o : HostBuffer) : Prop :=
  h'.block.response = some .okBuffer ∧ h'.buffers = h.buffers.set y o

/-- A DEC or ENC out of range ends with RANGE_FAULT (R93). -/
theorem exec_of_not_inRange {s : State} {o : Op} {p : Plane} {axb : Addr20} (dxor hdr : Byte) (ho : o ≠ .net)
    (hr : ¬Claims.InRange p axb s.len) :
    exec (Instr.ofFields o p axb dxor hdr) s = .next (s.endNonOk .rangeFault) := by
  have hr' : ¬inRange p (combinedXor p axb) s.len = true := fun h => hr (inRange_combinedXor_iff.mp h)
  cases o with
  | net => exact absurd rfl ho
  | dec => rw [exec_ofFields_dec, decryptBuffer_eq, if_neg hr']
  | enc => rw [exec_ofFields_enc, encryptBuffer_eq, if_neg hr']

/-- The block as a stage runs: the source and the storage of the destination bound, the command issued and taken. -/
def HostSide.stageBlock (h : HostSide) (b d : HostBuffer) (i : Instr) : State :=
  ((h.block.bindBuffers b.len b.bytes (d.storage b.len)).issue (encode i) 0).accept

@[simp] theorem HostSide.stageBlock_len (h : HostSide) (b d : HostBuffer) (i : Instr) :
    (h.stageBlock b d i).len = b.len := rfl

@[simp] theorem HostSide.stageBlock_src (h : HostSide) (b d : HostBuffer) (i : Instr) :
    (h.stageBlock b d i).src = b.bytes := rfl

section
variable {h : HostSide} {vt : VariantTable} {p : Plane} {v : Variant} {x y : Nat} {b d : HostBuffer}

/-- A stage is its command on the stage's block, and the host's buffers are committed after it. -/
theorem HostSide.issueCommand_stage {i : Instr} {t : State} (hxy : x ≠ y) (hb : h.buffers[x]? = some b)
    (hd : h.buffers[y]? = some d) (he : exec i (h.stageBlock b d i) = .next t) :
    h.issueCommand ⟨encode i, 0, some (x, y)⟩ =
      .next { block := t, buffers := commitBuffers h.buffers y b.len t } :=
  issueCommand_of_exec rfl hxy hb hd (decode_encode i) he

/-- A stage that ends with the OK of a buffer command leaves its DST in the destination. -/
theorem HostSide.issueCommand_stage_ok {i : Instr} {t : State} (hxy : x ≠ y) (hb : h.buffers[x]? = some b)
    (hd : h.buffers[y]? = some d) (he : exec i (h.stageBlock b d i) = .next t) (ht : t.response = some .okBuffer) :
    h.issueCommand ⟨encode i, 0, some (x, y)⟩ = .next { block := t, buffers := h.buffers.set y ⟨b.len, t.dst⟩ } := by
  rw [issueCommand_stage hxy hb hd he, commitBuffers_of_ok ht]

/-- A stage that ends otherwise leaves every buffer. -/
theorem HostSide.issueCommand_stage_not_ok {i : Instr} {t : State} (hxy : x ≠ y) (hb : h.buffers[x]? = some b)
    (hd : h.buffers[y]? = some d) (he : exec i (h.stageBlock b d i) = .next t) (ht : t.response ≠ some .okBuffer) :
    h.issueCommand ⟨encode i, 0, some (x, y)⟩ = .next { block := t, buffers := h.buffers } := by
  rw [issueCommand_stage hxy hb hd he, commitBuffers_of_not_ok ht]

/-- A DECV stage in range leaves the plaintext of its source in its destination. -/
theorem HostSide.issueCommand_decv (hxy : x ≠ y) (hb : h.buffers[x]? = some b) (hd : h.buffers[y]? = some d)
    (hr : Claims.InRange p (vt v p).axb b.len) :
    ∃ h' o, h.issueCommand ⟨encode (expandDecv vt p v), 0, some (x, y)⟩ = .next h' ∧ WroteOk h h' y o ∧
      IsPlaintextOf p (vt v p) b o := by
  have he := exec_dec_of_inRange (s := h.stageBlock b d (expandDecv vt p v)) (vt v p).dxor 0#8 hr
  exact ⟨_, _, issueCommand_stage_ok hxy hb hd he rfl, ⟨rfl, rfl⟩,
    isPlaintextOf_decImage (stageBlock_len h b d _) (stageBlock_src h b d _)⟩

/-- An ENCV stage admitted by both checks leaves the ciphertext of its source in its destination. -/
theorem HostSide.issueCommand_encv (hxy : x ≠ y) (hb : h.buffers[x]? = some b) (hd : h.buffers[y]? = some d)
    (hr : Claims.InRange p (vt v p).axb b.len) (hj : Claims.Injective p (vt v p).axb b.len) :
    ∃ h' o, h.issueCommand ⟨encode (expandEncv vt p v), 0, some (x, y)⟩ = .next h' ∧ WroteOk h h' y o ∧
      IsCiphertextOf p (vt v p) b o := by
  have he := exec_enc_of_admitted (s := h.stageBlock b d (expandEncv vt p v)) (vt v p).dxor (vt v p).hdr hr hj
  exact ⟨_, _, issueCommand_stage_ok hxy hb hd he rfl, ⟨rfl, rfl⟩,
    isCiphertextOf_encImage (stageBlock_len h b d _) (stageBlock_src h b d _) hj⟩

/-- A stage out of range ends with RANGE_FAULT and leaves every buffer. -/
theorem HostSide.issueCommand_of_not_inRange {o : Op} {axb : Addr20} (dxor hdr : Byte) (ho : o ≠ .net) (hxy : x ≠ y)
    (hb : h.buffers[x]? = some b) (hd : h.buffers[y]? = some d) (hr : ¬Claims.InRange p axb b.len) :
    ∃ h', h.issueCommand ⟨encode (Instr.ofFields o p axb dxor hdr), 0, some (x, y)⟩ = .next h' ∧
      h'.block.response = some .rangeFault ∧ h'.buffers = h.buffers := by
  have he := exec_of_not_inRange (s := h.stageBlock b d (Instr.ofFields o p axb dxor hdr)) dxor hdr ho hr
  exact ⟨_, issueCommand_stage_not_ok hxy hb hd he (by simp), rfl, rfl⟩

end

/-! ### The driver's runs (R66) -/

/-- A stage that ends OK lets the next ones run. -/
theorem HostSide.runStages_cons_of_ok {h h' : HostSide} {c : HostCommand} {rest : List HostCommand}
    (hc : h.issueCommand c = .next h') (hok : h'.block.response = some .okBuffer) :
    h.runStages (c :: rest) = h'.runStages rest := by
  simp [runStages, hc, hok]

/-- A stage that does not end OK is the last one (U12). -/
theorem HostSide.runStages_cons_of_not_ok {h h' : HostSide} {c : HostCommand} {rest : List HostCommand}
    (hc : h.issueCommand c = .next h') (hok : h'.block.response ≠ some .okBuffer) :
    h.runStages (c :: rest) = .next h' := by
  simp [runStages, hc, hok]

/-- A pseudo-instruction of one command is that command, from the input to the output. -/
theorem HostSide.runPseudo_of_one {h h' : HostSide} {vt : VariantTable} {q : Pseudo} {i : Instr}
    {input temp output : Nat} (hq : expandPseudo vt q = [i])
    (hc : h.issueCommand ⟨encode i, 0, some (input, output)⟩ = .next h') :
    h.runPseudo vt q input temp output = .next h' := by
  simp [runPseudo, hq, stageCommands, runStages, hc]

/-- A RECRYPT of two variants is two stages, through the intermediate buffer. -/
theorem HostSide.runPseudo_recrypt (h : HostSide) (vt : VariantTable) (p : Plane) (vin vout : Variant)
    (input temp output : Nat) :
    h.runPseudo vt (.recrypt p (some vin) (some vout)) input temp output =
      h.runStages [⟨encode (expandDecv vt p vin), 0, some (input, temp)⟩,
        ⟨encode (expandEncv vt p vout), 0, some (temp, output)⟩] :=
  rfl

/-- Settles O52: with no variant the driver copies. -/
theorem recryptWithoutVariantsCopies : Obligations.RecryptWithoutVariantsCopies := by
  intro h vt p input temp output b d hb hd
  change h.copyBuffer input output = _
  simp [HostSide.copyBuffer, hb, hd]

/-- Settles O53: the first stage ends with RANGE_FAULT and is the last one. -/
theorem recryptStopsAfterAFailedFirstStage : Obligations.RecryptStopsAfterAFailedFirstStage := by
  intro h vt p vin vout input temp output b d hit hb hd hr
  obtain ⟨h', hc, hresponse, hbuffers⟩ :=
    HostSide.issueCommand_of_not_inRange (vt vin p).dxor 0#8 (o := .dec) (by decide) hit hb hd hr
  refine ⟨h', ?_, hbuffers, hresponse⟩
  rw [HostSide.runPseudo_recrypt]
  exact HostSide.runStages_cons_of_not_ok hc (by simp [hresponse])

theorem getElem?_set_self_of_eq_some {α : Type} {l : List α} {y : Nat} {d : α} (hd : l[y]? = some d) (o : α) :
    (l.set y o)[y]? = some o :=
  List.getElem?_set_self (List.getElem?_eq_some_iff.mp hd).1

/-- Settles O54: the first stage leaves the plaintext in the intermediate buffer, the second stage its ciphertext in the
output, and neither writes the input. -/
theorem recryptReencryptsTheInput : Obligations.RecryptReencryptsTheInput := by
  intro h vt p vin vout input temp output b d e hit hto hio hb hd he hrin hrout hj
  obtain ⟨h₁, m, hc₁, ⟨hok₁, hbuf₁⟩, hmlen, hplain⟩ := HostSide.issueCommand_decv hit hb hd hrin
  have hm : h₁.buffers[temp]? = some m := by rw [hbuf₁, getElem?_set_self_of_eq_some hd]
  have he₁ : h₁.buffers[output]? = some e := by rw [hbuf₁, List.getElem?_set_ne hto, he]
  rw [← hmlen] at hrout hj
  obtain ⟨h₂, o, hc₂, ⟨hok₂, hbuf₂⟩, holen, hcipher⟩ := HostSide.issueCommand_encv hto hm he₁ hrout hj
  refine ⟨h₂, o, ?_, hok₂, ?_, ?_, holen.trans hmlen, fun i hi => ?_⟩
  · rw [HostSide.runPseudo_recrypt, HostSide.runStages_cons_of_ok hc₁ hok₁, HostSide.runStages_cons_of_ok hc₂ hok₂]
    rfl
  · rw [hbuf₂, List.getElem?_set_ne hio.symm, hbuf₁, List.getElem?_set_ne hit.symm, hb]
  · rw [hbuf₂, getElem?_set_self_of_eq_some he₁]
  · rw [hcipher i (hmlen ▸ hi), hplain i hi]

/-- Settles O56: each of the four is one command, a DECV or an ENCV, from the input to the output. -/
theorem recryptWithOneVariantIsOneStage : Obligations.RecryptWithOneVariantIsOneStage := by
  intro h vt p v input temp output b d hio hb hd
  have hdecv : ∀ q ∈ [Pseudo.decv p v, .recrypt p (some v) none], expandPseudo vt q = [expandDecv vt p v] := by
    simp [expandPseudo]
  have hencv : ∀ q ∈ [Pseudo.encv p v, .recrypt p none (some v)], expandPseudo vt q = [expandEncv vt p v] := by
    simp [expandPseudo]
  refine ⟨fun hr q hq => ?_, fun hr hj q hq => ?_, fun hr q hq => ?_⟩
  · obtain ⟨h', o, hc, ⟨hok, hbuffers⟩, hlen, hbytes⟩ := HostSide.issueCommand_decv hio hb hd hr
    exact ⟨h', o, HostSide.runPseudo_of_one (hdecv q hq) hc, hok, hbuffers, hlen, hbytes⟩
  · obtain ⟨h', o, hc, ⟨hok, hbuffers⟩, hlen, hbytes⟩ := HostSide.issueCommand_encv hio hb hd hr hj
    exact ⟨h', o, HostSide.runPseudo_of_one (hencv q hq) hc, hok, hbuffers, hlen, hbytes⟩
  · have hq' : q ∈ [Pseudo.decv p v, .recrypt p (some v) none] ∨ q ∈ [Pseudo.encv p v, .recrypt p none (some v)] := by
      simp only [List.mem_cons, List.not_mem_nil, or_false] at hq ⊢
      tauto
    rcases hq' with hq | hq
    · obtain ⟨h', hc, hend⟩ :=
        HostSide.issueCommand_of_not_inRange (vt v p).dxor 0#8 (o := .dec) (by decide) hio hb hd hr
      exact ⟨h', HostSide.runPseudo_of_one (hdecv q hq) hc, hend⟩
    · obtain ⟨h', hc, hend⟩ :=
        HostSide.issueCommand_of_not_inRange (vt v p).dxor (vt v p).hdr (o := .enc) (by decide) hio hb hd hr
      exact ⟨h', HostSide.runPseudo_of_one (hencv q hq) hc, hend⟩

/-! ### The assembler's words (R62) -/

theorem assemble_of_wf {aw : Nat} {l : AsmLine} (h : AsmLine.wf aw l = true) :
    assemble aw l = .ok (encode (lineInstr l), lineOperandA l) := if_pos h

theorem assemble_of_not_wf {aw : Nat} {l : AsmLine} (h : AsmLine.wf aw l = false) :
    assemble aw l = .error .operandOutOfRange := by
  simp [assemble, h]

/-- An operand that passes its check is not truncated by its field. -/
theorem toNat_ofNat_of_axbFits {axb : Nat} (h : axbFits axb = true) : (BitVec.ofNat 20 axb).toNat = axb := by
  rw [BitVec.toNat_ofNat, Nat.mod_eq_of_lt (of_decide_eq_true h)]

theorem toNat_ofNat_of_byteFits {v : Nat} (h : byteFits v = true) : (BitVec.ofNat 8 v).toNat = v := by
  rw [BitVec.toNat_ofNat, Nat.mod_eq_of_lt (of_decide_eq_true h)]

/-- Settles O50: the word is that of the line's command, which decodes to it, and the checks of the operands are those of
the fields' widths. -/
theorem assembledLineDecodesToItsCommand : Obligations.AssembledLineDecodesToItsCommand := by
  intro aw l
  refine ⟨assemble_of_not_wf, fun hwf => ⟨_, lineInstr l, assemble_of_wf hwf, decode_encode _, ?_⟩⟩
  cases l with
  | net p axb a =>
    obtain ⟨haxb, -⟩ : axbFits axb = true ∧ addressFits aw a = true := by simpa [AsmLine.wf] using hwf
    simp [lineInstr, lineOperandA, toNat_ofNat_of_axbFits haxb]
  | dec p axb dxor =>
    obtain ⟨haxb, hdxor⟩ : axbFits axb = true ∧ byteFits dxor = true := by simpa [AsmLine.wf] using hwf
    simp [lineInstr, toNat_ofNat_of_axbFits haxb, toNat_ofNat_of_byteFits hdxor]
  | enc p axb dxor hdr =>
    obtain ⟨⟨haxb, hdxor⟩, hhdr⟩ : (axbFits axb = true ∧ byteFits dxor = true) ∧ byteFits hdr = true := by
      simpa [AsmLine.wf] using hwf
    simp [lineInstr, toNat_ofNat_of_axbFits haxb, toNat_ofNat_of_byteFits hdxor, toNat_ofNat_of_byteFits hhdr]

/-! ### The parts of a source line (R62) -/

/-- A text that is read in one piece: not empty, with no space and no `;` that starts a comment. -/
def IsWord (cs : List Char) : Prop := cs ≠ [] ∧ ∀ c ∈ cs, c ≠ ';' ∧ isSpace c = false

theorem trimSpace_eq (cs : List Char) : trimSpace cs = (cs.dropWhile isSpace).rdropWhile isSpace := rfl

theorem trimSpace_space_cons (cs : List Char) : trimSpace (' ' :: cs) = trimSpace cs := rfl

section
variable {m : List Char} (hm : IsWord m)
include hm

/-- Trimming the start of a text stops at its first word. -/
theorem IsWord.dropWhile_append (cs : List Char) : (m ++ cs).dropWhile isSpace = m ++ cs := by
  obtain ⟨hne, hchars⟩ := hm
  cases m with
  | nil => exact absurd rfl hne
  | cons c m => exact List.dropWhile_cons_of_neg (by simp [(hchars c (by simp)).2])

/-- Trimming the end of a text stops at its last word. -/
theorem IsWord.rdropWhile_append (cs : List Char) : (cs ++ m).rdropWhile isSpace = cs ++ m := by
  obtain ⟨hne, hchars⟩ := hm
  rw [List.rdropWhile_eq_self_iff]
  intro h
  rw [List.getLast_append_of_ne_nil h hne]
  simp [(hchars _ (List.getLast_mem hne)).2]

/-- Trimming a text that begins with a word trims what follows the word. -/
theorem IsWord.trimSpace_append (cs : List Char) : trimSpace (m ++ cs) = m ++ cs.rdropWhile isSpace := by
  rw [trimSpace_eq, hm.dropWhile_append]
  induction cs using List.reverseRecOn with
  | nil => simpa using hm.rdropWhile_append []
  | append_singleton cs c ih =>
    rw [← List.append_assoc, List.rdropWhile_concat, List.rdropWhile_concat, ih]
    split_ifs
    · rfl
    · rw [List.append_assoc]

theorem IsWord.trimSpace : trimSpace m = m := by
  simpa using hm.trimSpace_append []

theorem IsWord.takeWhile_comment_append (cs : List Char) :
    (m ++ cs).takeWhile (· != ';') = m ++ cs.takeWhile (· != ';') :=
  List.takeWhile_append_of_pos fun c hc => by simp [(hm.2 c hc).1]

end

/-- What stands after the mnemonic of a line, up to the comment and the space at its end. -/
def afterMnemonic (text : List Char) : List Char := (' ' :: text.takeWhile (· != ';')).rdropWhile isSpace

/-- What stands after the mnemonic begins with a space, if anything does. -/
theorem afterMnemonic_eq_nil_or_cons (text : List Char) :
    afterMnemonic text = [] ∨ ∃ cs, afterMnemonic text = ' ' :: cs := by
  have hprefix : afterMnemonic text <+: ' ' :: text.takeWhile (· != ';') := List.rdropWhile_prefix isSpace _
  cases hcs : afterMnemonic text with
  | nil => exact .inl rfl
  | cons c cs =>
    rw [hcs, List.cons_prefix_cons] at hprefix
    obtain ⟨rfl, -⟩ := hprefix
    exact .inr ⟨cs, rfl⟩

/-- A line is trimmed to its mnemonic and what stands after it. -/
theorem IsWord.trimSpace_line {m : List Char} (hm : IsWord m) (text : List Char) :
    Machine.trimSpace ((m ++ ' ' :: text).takeWhile (· != ';')) = m ++ afterMnemonic text := by
  rw [hm.takeWhile_comment_append, List.takeWhile_cons_of_pos (by decide), hm.trimSpace_append, afterMnemonic]

/-- The mnemonic of a line is its first word. -/
theorem IsWord.takeWhile_line {m : List Char} (hm : IsWord m) (text : List Char) :
    (m ++ afterMnemonic text).takeWhile (fun c => !isSpace c) = m := by
  rw [List.takeWhile_append_of_pos fun c hc => by simp [(hm.2 c hc).2]]
  rcases afterMnemonic_eq_nil_or_cons text with h | ⟨cs, h⟩
  · simp [h]
  · simp [h, isSpace]

theorem IsWord.dropWhile_line {m : List Char} (hm : IsWord m) (text : List Char) :
    (m ++ afterMnemonic text).dropWhile (fun c => !isSpace c) = afterMnemonic text := by
  rw [List.dropWhile_append_of_pos fun c hc => by simp [(hm.2 c hc).2]]
  rcases afterMnemonic_eq_nil_or_cons text with h | ⟨cs, h⟩
  · simp [h]
  · simp [h, isSpace]

/-- A mnemonic splits at its first point. -/
theorem takeWhile_point {base : List Char} (hbase : ∀ c ∈ base, c ≠ '.') (suffix : List Char) :
    (base ++ '.' :: suffix).takeWhile (· != '.') = base := by
  rw [List.takeWhile_append_of_pos fun c hc => by simp [hbase c hc]]
  simp

theorem dropWhile_point {base : List Char} (hbase : ∀ c ∈ base, c ≠ '.') (suffix : List Char) :
    ((base ++ '.' :: suffix).dropWhile (· != '.')).drop 1 = suffix := by
  rw [List.dropWhile_append_of_pos fun c hc => by simp [hbase c hc]]
  simp

/-! ### The lines of the pseudo-instructions (R64 to R67) -/

/-- The three pseudo-instructions, each with how it reads its operands. -/
def pseudoReaders : List (List Char × (Plane → List (List Char) → Except AsmError Pseudo)) :=
  [("DECV".toList, fun p => readVariantPseudo (.decv p)), ("ENCV".toList, fun p => readVariantPseudo (.encv p)),
    ("RECRYPT".toList, readRecrypt)]

theorem pseudoReaders_base : ∀ e ∈ pseudoReaders, ∀ c ∈ e.1, c ≠ '.' ∧ c ≠ ';' ∧ isSpace c = false := by
  simp [pseudoReaders, isSpace]

/-- A line whose mnemonic is a pseudo-instruction's with any suffix: a CONFIG_ERROR of the host where the suffix is no
plane, and otherwise what the pseudo-instruction reads from the operands. -/
theorem readLine_pseudo {base suffix : List Char} {read : Plane → List (List Char) → Except AsmError Pseudo}
    (hbase : (base, read) ∈ pseudoReaders) (hsuffix : ∀ c ∈ suffix, c ≠ ';' ∧ isSpace c = false) (text : List Char) :
    readLine (base ++ '.' :: suffix ++ ' ' :: text) = (readPlane suffix).elim (.error .configError)
      fun p => (read p (readOperands (afterMnemonic text))).map .pseudo := by
  have hchars := pseudoReaders_base _ hbase
  have hword : IsWord (base ++ '.' :: suffix) := by
    refine ⟨by simp, List.forall_mem_append.mpr ⟨fun c hc => (hchars c hc).2, List.forall_mem_cons.mpr ⟨?_, hsuffix⟩⟩⟩
    decide
  have hpoint : ∀ c ∈ base, c ≠ '.' := fun c hc => (hchars c hc).1
  simp only [readLine, hword.trimSpace_line, hword.takeWhile_line, hword.dropWhile_line, takeWhile_point hpoint,
    dropWhile_point hpoint]
  rw [if_neg (by simp)]
  simp only [pseudoReaders, List.mem_cons, Prod.mk.injEq, List.not_mem_nil, or_false] at hbase
  rcases hbase with ⟨rfl, rfl⟩ | ⟨rfl, rfl⟩ | ⟨rfl, rfl⟩
  · cases readPlane suffix <;> rfl
  · cases readPlane suffix <;> rfl
  · cases readPlane suffix <;> rfl

theorem assembleLine_of_readLine_error {line : List Char} {e : AsmError} (h : readLine line = .error e) (aw : Nat)
    (vt : VariantTable) : assembleLine aw vt line = .error e := by
  simp [assembleLine, h]

/-- Settles O58: the suffix is no plane. -/
theorem unknownPlaneSuffixIsAConfigError : Obligations.UnknownPlaneSuffixIsAConfigError := by
  intro aw vt suffix operands hsuffix htx hbg base hbase
  obtain ⟨⟨base, read⟩, hread, rfl⟩ := List.mem_map.mp (show base ∈ pseudoReaders.map Prod.fst from hbase)
  have hplane : readPlane suffix = none := by simp only [readPlane, htx, hbg, if_false]
  refine assembleLine_of_readLine_error ?_ aw vt
  rw [readLine_pseudo hread hsuffix, hplane, Option.elim_none]

/-- The suffix of a plane. -/
def planeSuffix : Plane → List Char
  | .tx => "TX".toList
  | .bg => "BG".toList

theorem readPlane_planeSuffix (p : Plane) : readPlane (planeSuffix p) = some p := by
  cases p with
  | tx => rfl
  | bg => rfl

theorem planeSuffix_chars (p : Plane) : ∀ c ∈ planeSuffix p, c ≠ ';' ∧ isSpace c = false := by
  cases p with
  | tx => simp [planeSuffix, isSpace]
  | bg => simp [planeSuffix, isSpace]

/-- A pseudo-instruction's line on a plane is a CONFIG_ERROR of the host where its operands read as one. -/
theorem assembleLine_pseudo_configError {base text : List Char}
    {read : Plane → List (List Char) → Except AsmError Pseudo} {p : Plane} (hbase : (base, read) ∈ pseudoReaders)
    (herror : read p (readOperands (afterMnemonic text)) = .error .configError) (aw : Nat) (vt : VariantTable) :
    assembleLine aw vt (base ++ '.' :: planeSuffix p ++ ' ' :: text) = .error .configError := by
  refine assembleLine_of_readLine_error ?_ aw vt
  rw [readLine_pseudo hbase (planeSuffix_chars p), readPlane_planeSuffix, Option.elim_some, herror]
  rfl

/-! ### The operands of a pseudo-instruction -/

/-- Operands that end with a word and have no comment stand after the mnemonic as they are. -/
theorem afterMnemonic_append {m cs : List Char} (hm : IsWord m) (hcs : ∀ c ∈ cs, c ≠ ';') :
    afterMnemonic (cs ++ m) = ' ' :: (cs ++ m) := by
  have hcomment : (cs ++ m).takeWhile (· != ';') = cs ++ m := by
    rw [List.takeWhile_eq_self_iff]
    intro c hc
    rcases List.mem_append.mp hc with hc | hc
    · simp [hcs c hc]
    · simp [(hm.2 c hc).1]
  rw [afterMnemonic, hcomment]
  exact hm.rdropWhile_append (' ' :: cs)

theorem readOperands_of_ne_nil {cs : List Char} (h : trimSpace cs ≠ []) :
    readOperands cs = (splitCommas (trimSpace cs)).map trimSpace := by
  unfold readOperands
  split
  next hnil => exact absurd hnil h
  next => rfl

theorem splitCommas_of_no_comma {cs : List Char} (h : ∀ c ∈ cs, c ≠ ',') : splitCommas cs = [cs] := by
  induction cs with
  | nil => rfl
  | cons c cs ih =>
    obtain ⟨hc, hcs⟩ := List.forall_mem_cons.mp h
    simp [splitCommas, hc, ih hcs]

theorem splitCommas_append_comma {cs : List Char} (h : ∀ c ∈ cs, c ≠ ',') (ds : List Char) :
    splitCommas (cs ++ ',' :: ds) = cs :: splitCommas ds := by
  induction cs with
  | nil => rfl
  | cons c cs ih =>
    obtain ⟨hc, hcs⟩ := List.forall_mem_cons.mp h
    simp [splitCommas, hc, ih hcs]

/-- One operand after the mnemonic is read as it stands. -/
theorem readOperands_one {m : List Char} (hm : IsWord m) (hcomma : ∀ c ∈ m, c ≠ ',') :
    readOperands (afterMnemonic m) = [m] := by
  have hafter : afterMnemonic m = ' ' :: m := afterMnemonic_append (cs := []) hm (by simp)
  have htrim : trimSpace (afterMnemonic m) = m := by rw [hafter, trimSpace_space_cons, hm.trimSpace]
  rw [readOperands_of_ne_nil (by rw [htrim]; exact hm.1), htrim, splitCommas_of_no_comma hcomma,
    List.map_singleton, hm.trimSpace]

/-- Two operands after the mnemonic, with a comma and a space between them, are read as they stand. -/
theorem readOperands_two {m n : List Char} (hm : IsWord m) (hn : IsWord n) (hmcomma : ∀ c ∈ m, c ≠ ',')
    (hncomma : ∀ c ∈ n, c ≠ ',') : readOperands (afterMnemonic (m ++ ", ".toList ++ n)) = [m, n] := by
  have hcomment : ∀ c ∈ m ++ ", ".toList, c ≠ ';' :=
    List.forall_mem_append.mpr ⟨fun c hc => (hm.2 c hc).1, by simp⟩
  have htrim : trimSpace (afterMnemonic (m ++ ", ".toList ++ n)) = m ++ ',' :: ' ' :: n := by
    rw [afterMnemonic_append hn hcomment, trimSpace_space_cons, List.append_assoc, hm.trimSpace_append,
      hn.rdropWhile_append]
    rfl
  have hspace : ∀ c ∈ ' ' :: n, c ≠ ',' := List.forall_mem_cons.mpr ⟨by decide, hncomma⟩
  rw [readOperands_of_ne_nil (by rw [htrim]; simp), htrim, splitCommas_append_comma hmcomma,
    splitCommas_of_no_comma hspace, List.map_cons, List.map_singleton, trimSpace_space_cons, hm.trimSpace, hn.trimSpace]

/-! ### Unknown variant names (R67) -/

/-- The names of the four variants (R2). -/
def variantNames : List (List Char) :=
  ["SS91022-10".toList, "SS92046-01".toList, "SS92047-01".toList, "SS92048-01".toList]

theorem readVariant_of_not_mem {name : List Char} (h : name ∉ variantNames) : readVariant name = none := by
  simp only [variantNames, List.mem_cons, List.not_mem_nil, or_false, not_or] at h
  obtain ⟨h1, h2, h3, h4⟩ := h
  simp only [readVariant, h1, h2, h3, h4, if_false]

theorem readStage_of_not_mem {name : List Char} (h : name ∉ "-".toList :: variantNames) : readStage name = none := by
  obtain ⟨hdash, hname⟩ := not_or.mp (List.mem_cons.not.mp h)
  have hdash' : name ≠ ['-'] := hdash
  rw [readStage, if_neg hdash', readVariant_of_not_mem hname, Option.map_none]

theorem readVariantPseudo_of_not_mem {name : List Char} (mk : Variant → Pseudo) (h : name ∉ variantNames) :
    readVariantPseudo mk [name] = .error .configError := by
  simp [readVariantPseudo, readVariant_of_not_mem h]

/-- One unknown operand is enough for RECRYPT, whatever the other is. -/
theorem readRecrypt_of_not_mem {vin vout : List Char} (p : Plane)
    (h : ∃ name ∈ [vin, vout], name ∉ "-".toList :: variantNames) :
    readRecrypt p [vin, vout] = .error .configError := by
  obtain ⟨name, hname, hunknown⟩ := h
  have hnone := readStage_of_not_mem hunknown
  simp only [List.mem_cons, List.not_mem_nil, or_false] at hname
  rcases hname with rfl | rfl
  · simp [readRecrypt, hnone]
  · cases hvin : readStage vin with
    | none => simp [readRecrypt, hvin]
    | some vin => simp [readRecrypt, hvin, hnone]

/-- Settles O55: the name is the line's one operand, and no variant's. -/
theorem unknownVariantIsAConfigError : Obligations.UnknownVariantIsAConfigError := by
  intro aw vt name hne hchars hunknown head hhead
  have hword : IsWord name := ⟨hne, fun c hc => ⟨(hchars c hc).1, (hchars c hc).2.2⟩⟩
  have hoperands := readOperands_one hword fun c hc => (hchars c hc).2.1
  have hline : ∀ (base : List Char) (mk : Plane → Variant → Pseudo) (p : Plane),
      (base, fun p => readVariantPseudo (mk p)) ∈ pseudoReaders →
      assembleLine aw vt (base ++ '.' :: planeSuffix p ++ ' ' :: name) = .error .configError := by
    intro base mk p hbase
    refine assembleLine_pseudo_configError hbase ?_ aw vt
    rw [hoperands]
    exact readVariantPseudo_of_not_mem (mk p) hunknown
  simp only [List.mem_cons, List.not_mem_nil, or_false] at hhead
  rcases hhead with rfl | rfl | rfl | rfl
  · exact hline "DECV".toList .decv .tx (by simp [pseudoReaders])
  · exact hline "DECV".toList .decv .bg (by simp [pseudoReaders])
  · exact hline "ENCV".toList .encv .tx (by simp [pseudoReaders])
  · exact hline "ENCV".toList .encv .bg (by simp [pseudoReaders])

/-- Settles O57: the two texts are the line's operands, and one of them is no operand of RECRYPT. -/
theorem recryptOfAnUnknownVariantIsAConfigError : Obligations.RecryptOfAnUnknownVariantIsAConfigError := by
  intro aw vt vin vout hvin hvout hchars hunknown head hhead
  obtain ⟨hinChars, houtChars⟩ := List.forall_mem_append.mp hchars
  have hoperands := readOperands_two ⟨hvin, fun c hc => ⟨(hinChars c hc).1, (hinChars c hc).2.2⟩⟩
    ⟨hvout, fun c hc => ⟨(houtChars c hc).1, (houtChars c hc).2.2⟩⟩ (fun c hc => (hinChars c hc).2.1)
    fun c hc => (houtChars c hc).2.1
  have hline : ∀ p : Plane, assembleLine aw vt
      ("RECRYPT".toList ++ '.' :: planeSuffix p ++ ' ' :: (vin ++ ", ".toList ++ vout)) = .error .configError := by
    intro p
    refine assembleLine_pseudo_configError (read := readRecrypt) (by simp [pseudoReaders]) ?_ aw vt
    rw [hoperands]
    exact readRecrypt_of_not_mem p hunknown
  have hassoc : head ++ vin ++ ", ".toList ++ vout = head ++ (vin ++ ", ".toList ++ vout) := by
    rw [List.append_assoc, List.append_assoc, List.append_assoc]
  rw [hassoc]
  simp only [List.mem_cons, List.not_mem_nil, or_false] at hhead
  rcases hhead with rfl | rfl
  · exact hline .tx
  · exact hline .bg

end Sys2Proof.Machine

/-! PROOFS. The statements of family 40_address_network: the network's algebra, the running XOR in its two groups and the
inverse, the address maps as sums of a block and an offset, and the address queries. -/

namespace Sys2Proof.Machine

/-! ### The network as a sum of masks (R73 to R76) -/

/-- XOR is commutative and associative, so a table may be read in any order. -/
theorem netOf_perm {table table' : List (Nat × Nat)} (h : table.Perm table') (w : Nat) :
    netOf table w = netOf table' w := by
  induction h with
  | nil => rfl
  | cons e _ ih => rw [netOf_cons, netOf_cons, ih]
  | swap e d table => rw [netOf_cons, netOf_cons, netOf_cons, netOf_cons, Nat.xor_left_comm]
  | trans _ _ ih ih' => exact ih.trans ih'

/-- Settles O22: the loop depends on the entries alone. -/
theorem tableOrderDoesNotAffectTheNetwork : Obligations.TableOrderDoesNotAffectTheNetwork :=
  fun _ _ h w => netOf_perm h w

theorem netOf_xor (table : List (Nat × Nat)) (a b : Nat) :
    netOf table (a ^^^ b) = netOf table a ^^^ netOf table b := by
  induction table with
  | nil => simp
  | cons e table ih =>
    have hentry : (if (a ^^^ b).testBit e.1 then e.2 else 0) =
        (if a.testBit e.1 then e.2 else 0) ^^^ (if b.testBit e.1 then e.2 else 0) := by
      rw [Nat.testBit_xor]
      cases a.testBit e.1 <;> cases b.testBit e.1 <;> simp
    rw [netOf_cons, netOf_cons, netOf_cons, ih, hentry]
    ac_rfl

theorem net_xor (p : Plane) (a b : Nat) : net p (a ^^^ b) = net p a ^^^ net p b := netOf_xor _ a b

@[simp] theorem net_zero (p : Plane) : net p 0 = 0 := by simpa using net_xor p 0 0

theorem net_bg_lt (w : Nat) : net .bg w < 2 ^ 20 := net_lt .bg w

theorem testBit_eq_false_of_le {n a k : Nat} (ha : a < 2 ^ n) (hk : n ≤ k) : a.testBit k = false :=
  Nat.testBit_lt_two_pow (ha.trans_le (Nat.pow_le_pow_right two_pos hk))

/-- Every source bit is a network bit. -/
theorem netTable_source_lt {p : Plane} {e : Nat × Nat} (he : e ∈ netTable p) : e.1 < netBits p :=
  List.mem_range.mp ((netTable_sources_perm p).mem_iff.mp (List.mem_map_of_mem he))

/-- The network tests the network's bits alone. -/
theorem net_mod (p : Plane) (w : Nat) : net p (w % 2 ^ netBits p) = net p w := by
  refine netOf_congr fun e he => ?_
  rw [Nat.testBit_mod_two_pow, decide_eq_true (netTable_source_lt he), Bool.true_and]

/-! ### The address map (R75, R77, R81) -/

/-- Cleared bits and bits below them do not meet. -/
theorem clearLow_or_eq_xor {n a : Nat} (i : Nat) (ha : a < 2 ^ n) : clearLow n i ||| a = clearLow n i ^^^ a := by
  refine Nat.eq_of_testBit_eq fun k => ?_
  rw [Nat.testBit_or, Nat.testBit_xor, testBit_clearLow]
  by_cases hk : n ≤ k
  · rw [testBit_eq_false_of_le ha hk, Bool.or_false, Bool.xor_false]
  · simp [hk]

theorem clearLow_or_eq_add {n a : Nat} (i : Nat) (ha : a < 2 ^ n) : clearLow n i ||| a = i / 2 ^ n * 2 ^ n + a := by
  rw [clearLow, ← Nat.shiftLeft_add_eq_or_of_lt ha, Nat.shiftLeft_eq, Nat.shiftRight_eq_div_pow]

theorem addrMap_eq_xor (p : Plane) (x : Addr20) (i : Nat) : addrMap p x i = passHigh p i ^^^ net p (i ^^^ x.toNat) := by
  cases p with
  | tx => rw [addrMap_tx, passHigh, Nat.zero_xor]
  | bg => rw [addrMap_bg, passHigh, clearLow_or_eq_xor i (net_bg_lt _)]

/-- The bg map keeps the block and maps the offset in it. -/
theorem addrMap_bg_eq_add (x : Addr20) (i : Nat) :
    addrMap .bg x i = i / 2 ^ 20 * 2 ^ 20 + net .bg (i ^^^ x.toNat) := by
  rw [addrMap_bg, clearLow_or_eq_add i (net_bg_lt _)]

theorem addrMap_bg_div (x : Addr20) (i : Nat) : addrMap .bg x i / 2 ^ 20 = i / 2 ^ 20 := by
  have hnet := net_bg_lt (i ^^^ x.toNat)
  rw [addrMap_bg_eq_add]
  omega

theorem addrMap_bg_mod (x : Addr20) (i : Nat) : addrMap .bg x i % 2 ^ 20 = net .bg (i ^^^ x.toNat) := by
  have hnet := net_bg_lt (i ^^^ x.toNat)
  rw [addrMap_bg_eq_add]
  omega

/-- Settles O23: the pass-through and the network share no bit. -/
theorem addressMapIsPassThroughAndNetwork : Obligations.AddressMapIsPassThroughAndNetwork := by
  intro x i
  refine ⟨addrMap_tx x i, ?_, ?_⟩
  · rw [addrMap_bg, clearLow_eq]
  · rw [addrMap_eq_xor, passHigh, clearLow_eq]

/-- The tx map ignores the bits of the address that its network ignores. -/
theorem addrMap_tx_mod (x : Addr20) (i : Nat) : addrMap .tx x (i % 2 ^ 19) = addrMap .tx x i := by
  rw [addrMap_tx, addrMap_tx, ← net_mod .tx (i ^^^ x.toNat), ← net_mod .tx (i % 2 ^ 19 ^^^ x.toNat), netBits_tx,
    Nat.xor_mod_two_pow, Nat.xor_mod_two_pow, Nat.mod_mod]

/-- Settles O24: the network's bound and the bits it tests, in each plane. -/
theorem addressMapRanges : Obligations.AddressMapRanges := by
  intro x i
  refine ⟨addrMap_tx_lt x i, ?_, (addrMap_tx_mod x i).symm, ?_, ?_⟩
  · rw [addrMap_tx]
    exact (net_mod .tx _).symm
  · rw [Nat.shiftRight_eq_div_pow, Nat.shiftRight_eq_div_pow, addrMap_bg_div]
  · rw [addrMap_bg_mod]
    exact (net_mod .bg _).symm

theorem clearLow_xor_of_lt {n k : Nat} (i : Nat) (hk : k < 2 ^ n) : clearLow n (i ^^^ k) = clearLow n i := by
  rw [clearLow, clearLow, Nat.shiftRight_xor_distrib, Nat.shiftRight_eq_zero k n hk, Nat.xor_zero]

/-- The pass-through does not see a change of network bits. -/
theorem passHigh_xor_of_lt {p : Plane} {k : Nat} (i : Nat) (hk : k < 2 ^ netBits p) :
    passHigh p (i ^^^ k) = passHigh p i := by
  cases p with
  | tx => rfl
  | bg => exact clearLow_xor_of_lt i hk

/-- The map of the address that `X` cancels. -/
theorem addrMap_self (p : Plane) (x : Addr20) : addrMap p x x.toNat = 0 := by
  have hpass : passHigh p x.toNat = 0 := by
    cases p with
    | tx => rfl
    | bg => rw [passHigh, clearLow_eq, Nat.div_eq_of_lt x.isLt, Nat.zero_mul]
  rw [addrMap_eq_xor, Nat.xor_self, net_zero, hpass, Nat.xor_zero]

/-- Settles O25: each entry is a conditional XOR, and the pass-through does not see `k`. -/
theorem networkIsLinear : Obligations.NetworkIsLinear := by
  refine fun p => ⟨net_xor p, net_zero p, fun x i k hk => ?_, addrMap_self p⟩
  rw [addrMap_eq_xor, addrMap_eq_xor, passHigh_xor_of_lt i hk, Nat.xor_right_comm, net_xor p _ k, Nat.xor_assoc]

/-! ### The network by its structure (R79) -/

/-- The mask of output bit `k`: the bits from `k` to the top of its group. -/
def groupMask (p : Plane) (k : Nat) : Nat := if k ≤ 9 then 2 ^ 10 - 2 ^ k else 2 ^ netBits p - 2 ^ k

/-- The table entry of output bit `k`: the bit of `w` that is `p_k`, and the outputs it reaches. -/
def netEntry (p : Plane) (k : Nat) : Nat × Nat := ((permTable p).getD k 0, groupMask p k)

/-- The tables of R18 and R19 are those of R79 in another order. -/
theorem netTable_perm_netEntry (p : Plane) : (netTable p).Perm ((List.range (netBits p)).map (netEntry p)) := by
  cases p with
  | tx => decide
  | bg => decide

theorem permTable_perm_range (p : Plane) : (permTable p).Perm (List.range (netBits p)) := by
  cases p with
  | tx => decide
  | bg => decide

theorem permTable_length (p : Plane) : (permTable p).length = netBits p := by
  rw [(permTable_perm_range p).length_eq, List.length_range]

/-- The outputs whose masks reach `k` are those of its group up to `k`. -/
theorem filter_groupMask_eq_range' {p : Plane} {k : Nat} (hk : k < netBits p) :
    (List.range (netBits p)).filter (fun m => (groupMask p m).testBit k) =
      List.range' (groupLow k) (k + 1 - groupLow k) := by
  revert k
  cases p with
  | tx => decide
  | bg => decide

/-- An output bit is the XOR of the permuted bits whose masks reach it. -/
theorem testBit_net {p : Plane} (w : Nat) {k : Nat} (hk : k < netBits p) :
    (net p w).testBit k = prefixXor (permBit p w) k := by
  have hentry : ∀ (acc : Bool) (m : Nat),
      (acc ^^ (w.testBit (netEntry p m).1 && (netEntry p m).2.testBit k)) =
        if (groupMask p m).testBit k then acc ^^ permBit p w m else acc := by
    intro acc m
    rw [netEntry, permBit]
    cases (groupMask p m).testBit k <;> simp
  rw [net, netOf_perm (netTable_perm_netEntry p), testBit_netOf, List.foldl_map, prefixXor,
    ← filter_groupMask_eq_range' hk, List.foldl_filter]
  simp only [hentry]

theorem net_eq_netByStructure (p : Plane) (w : Nat) : net p w = netByStructure p w := by
  refine Nat.eq_of_testBit_eq fun k => ?_
  by_cases hk : k < netBits p
  · rw [testBit_net w hk, netByStructure, Nat.testBit_ofBits_lt _ k hk]
  · have hle : netBits p ≤ k := Nat.le_of_not_lt hk
    rw [netByStructure, Nat.testBit_ofBits_ge _ k hle]
    exact testBit_eq_false_of_le (net_lt p w) hle

/-- Settles O27: in the order of R79's table, the masks that reach an output bit are those of its group up to it. -/
theorem networkIsPermutationThenPrefixXor : Obligations.NetworkIsPermutationThenPrefixXor := by
  refine fun p => ⟨net_eq_netByStructure p, fun w k hk => testBit_net w hk, fun e he => ?_⟩
  obtain ⟨k, hk, rfl⟩ := List.mem_map.mp ((netTable_perm_netEntry p).mem_iff.mp he)
  have hlt : k < netBits p := List.mem_range.mp hk
  have hlen : k < (permTable p).length := by rwa [permTable_length]
  refine ⟨k, hlt, ?_, rfl⟩
  rw [netEntry, List.getD_eq_getElem _ _ hlen, List.getElem?_eq_getElem hlen]

/-! ### The inverse network (R80) -/

/-- At the bottom of a group the running XOR of R79 is one bit. -/
theorem prefixXor_of_eq_groupLow {k : Nat} (hk : k = groupLow k) (f : Nat → Bool) : prefixXor f k = f k := by
  rw [prefixXor, ← hk, Nat.add_sub_cancel_left]
  simp

/-- The running XOR at `k` sees no bit above `k`. -/
theorem prefixXor_congr {k : Nat} {f g : Nat → Bool} (h : ∀ m ≤ k, f m = g m) : prefixXor f k = prefixXor g k := by
  unfold prefixXor
  refine List.foldl_ext _ _ _ fun acc m hm => ?_
  have hm' := List.mem_range'_1.mp hm
  rw [h m (by omega)]

/-- Above the bottom of its group the running XOR goes on from the bit below. -/
theorem prefixXor_succ {k : Nat} (hk : k + 1 ≠ groupLow (k + 1)) (f : Nat → Bool) :
    prefixXor f (k + 1) = (prefixXor f k ^^ f (k + 1)) := by
  have hlow : groupLow (k + 1) = groupLow k ∧ groupLow k ≤ k := by
    unfold groupLow at hk ⊢
    split_ifs at hk ⊢ <;> omega
  obtain ⟨hgroup, hle⟩ := hlow
  have hcount : k + 1 + 1 - groupLow k = k + 1 - groupLow k + 1 := by omega
  have hlast : groupLow k + (k + 1 - groupLow k) = k + 1 := by omega
  rw [prefixXor, hgroup, hcount, List.range'_1_concat, List.foldl_append, hlast]
  rfl

theorem unprefixBit_of_eq_groupLow {k : Nat} (hk : k = groupLow k) (j : Nat) : unprefixBit j k = j.testBit k :=
  if_pos hk

theorem unprefixBit_succ {k : Nat} (hk : k + 1 ≠ groupLow (k + 1)) (j : Nat) :
    unprefixBit j (k + 1) = (j.testBit (k + 1) ^^ j.testBit k) :=
  if_neg hk

/-- R80 step 1 gives the permuted bits back. -/
theorem unprefixBit_of_testBit {n j : Nat} {f : Nat → Bool} (h : ∀ k < n, j.testBit k = prefixXor f k) {k : Nat}
    (hk : k < n) : unprefixBit j k = f k := by
  by_cases hbottom : k = groupLow k
  · rw [unprefixBit_of_eq_groupLow hbottom, h k hk, prefixXor_of_eq_groupLow hbottom]
  · cases k with
    | zero => exact absurd rfl hbottom
    | succ k =>
      rw [unprefixBit_succ hbottom, h _ hk, h k (by omega), prefixXor_succ hbottom, Bool.xor_comm, ← Bool.xor_assoc,
        Bool.xor_self, Bool.false_xor]

/-- The running XOR of the bits of R80 step 1 is the number they came from. -/
theorem prefixXor_unprefixBit (j k : Nat) : prefixXor (unprefixBit j) k = j.testBit k := by
  induction k with
  | zero => rw [prefixXor_of_eq_groupLow rfl, unprefixBit_of_eq_groupLow rfl]
  | succ k ih =>
    by_cases hbottom : k + 1 = groupLow (k + 1)
    · rw [prefixXor_of_eq_groupLow hbottom, unprefixBit_of_eq_groupLow hbottom]
    · rw [prefixXor_succ hbottom, ih, unprefixBit_succ hbottom, Bool.xor_comm, Bool.xor_assoc, Bool.xor_self,
        Bool.xor_false]

theorem netInverse_lt (p : Plane) (j : Nat) : netInverse p j < 2 ^ netBits p := Nat.ofBits_lt_two_pow _

theorem testBit_netInverse {p : Plane} (j : Nat) {b : Nat} (hb : b < netBits p) :
    (netInverse p j).testBit b = unprefixBit j ((permTable p).idxOf b) := by
  rw [netInverse, Nat.testBit_ofBits_lt _ b hb]

/-- Every network bit has its place in the permutation. -/
theorem idxOf_permTable_lt {p : Plane} {b : Nat} (hb : b < netBits p) : (permTable p).idxOf b < netBits p := by
  rw [← permTable_length]
  exact List.idxOf_lt_length_iff.mpr ((permTable_perm_range p).mem_iff.mpr (List.mem_range.mpr hb))

theorem permBit_idxOf {p : Plane} (w : Nat) {b : Nat} (hb : b < netBits p) :
    permBit p w ((permTable p).idxOf b) = w.testBit b := by
  have hlt : (permTable p).idxOf b < (permTable p).length := by
    rw [permTable_length]
    exact idxOf_permTable_lt hb
  rw [permBit, List.getD_eq_getElem _ _ hlt, List.getElem_idxOf]

/-- The permuted bits of the inverse's working address are those of R80 step 1. -/
theorem permBit_netInverse {p : Plane} (j : Nat) {k : Nat} (hk : k < netBits p) :
    permBit p (netInverse p j) k = unprefixBit j k := by
  have hlt : k < (permTable p).length := by rwa [permTable_length]
  have hnodup : (permTable p).Nodup := (permTable_perm_range p).nodup_iff.mpr List.nodup_range
  have hbit : (permTable p)[k] < netBits p :=
    List.mem_range.mp ((permTable_perm_range p).mem_iff.mp (List.getElem_mem hlt))
  rw [permBit, List.getD_eq_getElem _ _ hlt, testBit_netInverse j hbit, hnodup.idxOf_getElem]

theorem netInverse_net (p : Plane) (w : Nat) : netInverse p (net p w) = w % 2 ^ netBits p := by
  refine Nat.eq_of_testBit_eq fun b => ?_
  rw [Nat.testBit_mod_two_pow]
  by_cases hb : b < netBits p
  · rw [testBit_netInverse _ hb, unprefixBit_of_testBit (fun k hk => testBit_net w hk) (idxOf_permTable_lt hb),
      permBit_idxOf w hb, decide_eq_true hb, Bool.true_and]
  · rw [decide_eq_false hb, Bool.false_and]
    exact testBit_eq_false_of_le (netInverse_lt p _) (Nat.le_of_not_lt hb)

theorem net_netInverse (p : Plane) (j : Nat) : net p (netInverse p j) = j % 2 ^ netBits p := by
  refine Nat.eq_of_testBit_eq fun k => ?_
  rw [Nat.testBit_mod_two_pow]
  by_cases hk : k < netBits p
  · have hpermuted : ∀ m ≤ k, permBit p (netInverse p j) m = unprefixBit j m := fun m hm =>
      permBit_netInverse j (hm.trans_lt hk)
    rw [testBit_net _ hk, prefixXor_congr hpermuted, prefixXor_unprefixBit, decide_eq_true hk, Bool.true_and]
  · rw [decide_eq_false hk, Bool.false_and]
    exact testBit_eq_false_of_le (net_lt p _) (Nat.le_of_not_lt hk)

/-! ### The inverse address map (R80) -/

theorem addrMapInverse_tx (x : Addr20) (j : Nat) :
    addrMapInverse .tx x j = (netInverse .tx j ^^^ x.toNat) % 2 ^ 19 := rfl

theorem addrMapInverse_tx_lt (x : Addr20) (j : Nat) : addrMapInverse .tx x j < 2 ^ 19 :=
  Nat.mod_lt _ (Nat.two_pow_pos 19)

/-- The offset that the inverse bg map gives lies in a block. -/
theorem netInverse_bg_xor_lt (x : Addr20) (j : Nat) : netInverse .bg j ^^^ x.toNat < 2 ^ 20 :=
  Nat.xor_lt_two_pow (netInverse_lt .bg j) x.isLt

/-- The inverse bg map keeps the block and finds the offset in it. -/
theorem addrMapInverse_bg (x : Addr20) (j : Nat) :
    addrMapInverse .bg x j = j / 2 ^ 20 * 2 ^ 20 + (netInverse .bg j ^^^ x.toNat) :=
  clearLow_or_eq_add j (netInverse_bg_xor_lt x j)

theorem addrMapInverse_bg_div (x : Addr20) (j : Nat) : addrMapInverse .bg x j / 2 ^ 20 = j / 2 ^ 20 := by
  have hoffset := netInverse_bg_xor_lt x j
  rw [addrMapInverse_bg]
  omega

theorem addrMapInverse_bg_mod (x : Addr20) (j : Nat) :
    addrMapInverse .bg x j % 2 ^ 20 = netInverse .bg j ^^^ x.toNat := by
  have hoffset := netInverse_bg_xor_lt x j
  rw [addrMapInverse_bg]
  omega

theorem netInverse_mod (p : Plane) (j : Nat) : netInverse p (j % 2 ^ netBits p) = netInverse p j := by
  have hnet : net p (netInverse p j) = j % 2 ^ netBits p := net_netInverse p j
  rw [← hnet, netInverse_net, Nat.mod_eq_of_lt (netInverse_lt p j)]

theorem addrMapInverse_addrMap_tx (x : Addr20) (i : Nat) : addrMapInverse .tx x (addrMap .tx x i) = i % 2 ^ 19 := by
  rw [addrMapInverse_tx, addrMap_tx, netInverse_net, netBits_tx, Nat.xor_mod_two_pow, Nat.mod_mod,
    ← Nat.xor_mod_two_pow, Nat.xor_xor_cancel_right]

theorem addrMap_addrMapInverse_tx (x : Addr20) (j : Nat) : addrMap .tx x (addrMapInverse .tx x j) = j % 2 ^ 19 := by
  rw [addrMapInverse_tx, addrMap_tx_mod, addrMap_tx, Nat.xor_xor_cancel_right, net_netInverse, netBits_tx]

theorem addrMapInverse_addrMap_bg (x : Addr20) (i : Nat) : addrMapInverse .bg x (addrMap .bg x i) = i := by
  have hoffset : netInverse .bg (addrMap .bg x i) = i % 2 ^ 20 ^^^ x.toNat := by
    rw [← netInverse_mod, netBits_bg, addrMap_bg_mod, netInverse_net, netBits_bg, Nat.xor_mod_two_pow,
      Nat.mod_eq_of_lt x.isLt]
  rw [addrMapInverse_bg, addrMap_bg_div, hoffset, Nat.xor_xor_cancel_right, Nat.div_add_mod']

theorem addrMap_addrMapInverse_bg (x : Addr20) (j : Nat) : addrMap .bg x (addrMapInverse .bg x j) = j := by
  have hoffset : (addrMapInverse .bg x j ^^^ x.toNat) % 2 ^ 20 = netInverse .bg j := by
    rw [Nat.xor_mod_two_pow, addrMapInverse_bg_mod, Nat.mod_eq_of_lt x.isLt, Nat.xor_xor_cancel_right]
  rw [addrMap_bg_eq_add, addrMapInverse_bg_div, ← net_mod, netBits_bg, hoffset, net_netInverse, netBits_bg,
    Nat.div_add_mod']

/-- Settles O28: the running XOR and the permutation are undone one after the other; the address maps add the XOR with
`X` and the block. -/
theorem inverseNetworkRecoversTheAddress : Obligations.InverseNetworkRecoversTheAddress := by
  refine ⟨netInverse_net, fun p j hj => ?_, fun x i hi => ?_, fun x j hj => ?_, addrMapInverse_addrMap_bg,
    addrMap_addrMapInverse_bg⟩
  · rw [net_netInverse, Nat.mod_eq_of_lt hj]
  · rw [addrMapInverse_addrMap_tx, Nat.mod_eq_of_lt hi]
  · rw [addrMap_addrMapInverse_tx, Nat.mod_eq_of_lt hj]

/-! ### The address maps as bijections (R78) -/

/-- A block is the addresses of one quotient. -/
theorem mem_block_iff {i k : Nat} : i ∈ Set.Ico (k * 2 ^ 20) ((k + 1) * 2 ^ 20) ↔ i / 2 ^ 20 = k := by
  rw [Set.mem_Ico]
  omega

theorem addrMap_tx_bijOn (x : Addr20) : Set.BijOn (addrMap .tx x) (Set.Iio (2 ^ 19)) (Set.Iio (2 ^ 19)) := by
  have hinverse : Set.InvOn (addrMapInverse .tx x) (addrMap .tx x) (Set.Iio (2 ^ 19)) (Set.Iio (2 ^ 19)) :=
    ⟨fun i hi => (addrMapInverse_addrMap_tx x i).trans (Nat.mod_eq_of_lt hi),
      fun j hj => (addrMap_addrMapInverse_tx x j).trans (Nat.mod_eq_of_lt hj)⟩
  exact hinverse.bijOn (fun i _ => addrMap_tx_lt x i) fun j _ => addrMapInverse_tx_lt x j

theorem addrMap_bg_bijOn_block (x : Addr20) (k : Nat) :
    Set.BijOn (addrMap .bg x) (Set.Ico (k * 2 ^ 20) ((k + 1) * 2 ^ 20)) (Set.Ico (k * 2 ^ 20) ((k + 1) * 2 ^ 20)) := by
  refine Set.InvOn.bijOn (f' := addrMapInverse .bg x)
    ⟨fun i _ => addrMapInverse_addrMap_bg x i, fun j _ => addrMap_addrMapInverse_bg x j⟩ (fun i hi => ?_) fun j hj => ?_
  · rw [mem_block_iff] at hi ⊢
    rw [addrMap_bg_div, hi]
  · rw [mem_block_iff] at hj ⊢
    rw [addrMapInverse_bg_div, hj]

/-- Settles O26: the inverse maps give the preimages, and the tx map sees an address modulo `2^19`. -/
theorem addressMapIsABijection : Obligations.AddressMapIsABijection := by
  refine fun x => ⟨addrMap_tx_bijOn x, addrMap_bg_bijOn_block x, fun i => ?_⟩
  rw [← addrMap_tx_mod x (i + 2 ^ 19), Nat.add_mod_right, addrMap_tx_mod]

/-! ### The address queries (R82, R83) -/

/-- NET.TX answers the physical address, and nothing else changes. -/
theorem netTx_endsWith (s : State) (axb : Addr20) (dxor hdr : Byte) :
    Claims.EndsWith (.netTx axb dxor hdr) s (.okAddress (addrMap .tx (axb ^^^ 0x1005d#20) s.a)) := rfl

/-- NET.BG answers the physical address, and nothing else changes. -/
theorem netBg_endsWith (s : State) (axb : Addr20) (dxor hdr : Byte) :
    Claims.EndsWith (.netBg axb dxor hdr) s (.okAddress (addrMap .bg (axb ^^^ 0xc1c5b#20) s.a)) := rfl

/-- Settles O29: the tx map is its network. -/
theorem netTxAnswersThePhysicalAddress : Obligations.NetTxAnswersThePhysicalAddress := by
  intro s axb dxor hdr
  rw [← addrMap_tx]
  exact netTx_endsWith s axb dxor hdr

/-- Settles O30: the bg map is the cleared address with its network. -/
theorem netBgAnswersThePhysicalAddress : Obligations.NetBgAnswersThePhysicalAddress := by
  intro s axb dxor hdr
  rw [← clearLow_eq, ← addrMap_bg]
  exact netBg_endsWith s axb dxor hdr

/-- The map of address 0 is the network's image of `X`. -/
theorem addrMap_zero (p : Plane) (x : Addr20) : addrMap p x 0 = net p x.toNat := by
  have hpass : passHigh p 0 = 0 := by cases p <;> rfl
  rw [addrMap_eq_xor, hpass, Nat.zero_xor, Nat.zero_xor]

/-- The offset that `X` cancels maps to the start of its block. -/
theorem addrMap_bg_self_add (x : Addr20) (k : Nat) : addrMap .bg x (x.toNat + k * 2 ^ 20) = k * 2 ^ 20 := by
  have hx := x.isLt
  have hdiv : (x.toNat + k * 2 ^ 20) / 2 ^ 20 = k := by omega
  have hmod : (x.toNat + k * 2 ^ 20) % 2 ^ 20 = x.toNat := by omega
  rw [addrMap_bg_eq_add, hdiv, ← net_mod, netBits_bg, Nat.xor_mod_two_pow, hmod, Nat.mod_eq_of_lt hx, Nat.xor_self,
    net_zero, Nat.add_zero]

/-- Settles O31: the map at `X`, at 0, without `X`, modulo `2^19`, and at `X` in a block. -/
theorem addressQueryCornerCases : Obligations.AddressQueryCornerCases := by
  intro s axb dxor hdr
  have htx := netTx_endsWith s axb dxor hdr
  have hbg := netBg_endsWith s axb dxor hdr
  refine ⟨fun ha => ?_, fun ha => ?_, ?_, ?_, fun k ha => ?_, fun ha => ?_⟩
  · simpa only [ha, addrMap_self] using htx
  · simpa only [ha, addrMap_zero] using htx
  · have hunmasked := netTx_endsWith s 0x1005d#20 dxor hdr
    simpa only [addrMap_tx, BitVec.xor_self, BitVec.toNat_zero, Nat.xor_zero] using hunmasked
  · rw [← addrMap_tx, addrMap_tx_mod]
    exact htx
  · simpa only [ha, addrMap_bg_self_add] using hbg
  · simpa only [ha, addrMap_zero] using hbg

theorem clearLow_le (n i : Nat) : clearLow n i ≤ i := by
  rw [clearLow_eq]
  exact Nat.div_mul_le_self i (2 ^ n)

/-- The map of an address of any width from 20 up has that width (R7). -/
theorem addrMap_lt_two_pow (p : Plane) (x : Addr20) {aw i : Nat} (haw : 20 ≤ aw) (hi : i < 2 ^ aw) :
    addrMap p x i < 2 ^ aw := by
  cases p with
  | tx => exact (addrMap_tx_lt x i).trans_le (Nat.pow_le_pow_right two_pos (by omega))
  | bg =>
    rw [addrMap_bg]
    exact Nat.or_lt_two_pow ((clearLow_le 20 i).trans_lt hi)
      ((net_bg_lt _).trans_le (Nat.pow_le_pow_right two_pos haw))

/-- Settles O32: the maps keep the width of the address. -/
theorem queriedAddressHasTheAddressWidth : Obligations.QueriedAddressHasTheAddressWidth := by
  intro aw s axb dxor hdr haw ha
  exact ⟨⟨_, addrMap_lt_two_pow .tx _ haw ha, netTx_endsWith s axb dxor hdr⟩,
    ⟨_, addrMap_lt_two_pow .bg _ haw ha, netBg_endsWith s axb dxor hdr⟩⟩

end Sys2Proof.Machine

/-! PROOFS. The statements of family 41_byte_transform: the lengths that pass the two checks, how a buffer command ends,
the bytes it leaves, and the round trips of its two directions. -/

namespace Sys2Proof.Machine

/-! ### The collision check in closed form (R94, R95) -/

theorem addrMap_tx_add (x : Addr20) (i : Nat) : addrMap .tx x (i + 2 ^ 19) = addrMap .tx x i := by
  obtain ⟨-, -, hperiod⟩ := addressMapIsABijection x
  exact (hperiod i).symm

theorem injective_tx_of_le (axb : Addr20) {len : Nat} (hlen : len ≤ 2 ^ 19) : Claims.Injective .tx axb len :=
  fun _ hi _ hj hij => (addrMap_tx_bijOn _).injOn (Set.mem_Iio.mpr (hi.trans_le hlen)) (hj.trans_le hlen) hij

/-- Beyond the network's addresses the tx map repeats itself. -/
theorem not_injective_tx_of_lt (axb : Addr20) {len : Nat} (hlen : 2 ^ 19 < len) : ¬Claims.Injective .tx axb len := by
  intro hj
  have hzero : 0 = 0 + 2 ^ 19 := hj 0 (by omega) (0 + 2 ^ 19) (by omega) (addrMap_tx_add _ 0).symm
  omega

theorem injective_bg (axb : Addr20) (len : Nat) : Claims.Injective .bg axb len :=
  fun _ _ _ _ hij => Function.LeftInverse.injective (addrMapInverse_addrMap_bg _) hij

/-! ### The range check in closed form (R93, R95) -/

theorem inRange_zero (p : Plane) (axb : Addr20) : Claims.InRange p axb 0 := fun _ hi => absurd hi (Nat.not_lt_zero _)

theorem injective_zero (p : Plane) (axb : Addr20) : Claims.Injective p axb 0 :=
  fun _ hi => absurd hi (Nat.not_lt_zero _)

theorem inRange_tx_of_le (axb : Addr20) {len : Nat} (hlen : 2 ^ 19 ≤ len) : Claims.InRange .tx axb len :=
  fun i _ => (addrMap_tx_lt _ i).trans_le hlen

theorem inRange_tx_iff {axb : Addr20} {len : Nat} :
    Claims.InRange .tx axb len ↔ ∀ o < len, net .tx (o ^^^ (axb ^^^ planeConst .tx).toNat) < len := by
  simp only [Claims.InRange, addrMap_tx]

/-- The bg map of an offset in a block. -/
theorem addrMap_bg_block (x : Addr20) (k : Nat) {o : Nat} (ho : o < 2 ^ 20) :
    addrMap .bg x (k * 2 ^ 20 + o) = k * 2 ^ 20 + net .bg (o ^^^ x.toNat) := by
  have hdiv : (k * 2 ^ 20 + o) / 2 ^ 20 = k := by omega
  have hmod : (k * 2 ^ 20 + o) % 2 ^ 20 = o % 2 ^ 20 := by omega
  have hnet : ∀ w, net .bg (w % 2 ^ 20) = net .bg w := net_mod .bg
  rw [addrMap_bg_eq_add, hdiv, ← hnet, Nat.xor_mod_two_pow, hmod, ← Nat.xor_mod_two_pow, hnet]

theorem inRange_bg_blocks (axb : Addr20) (k : Nat) : Claims.InRange .bg axb (k * 2 ^ 20) := by
  intro i hi
  have hdiv := addrMap_bg_div (axb ^^^ planeConst .bg) i
  omega

/-- Whole blocks map into themselves, so the offsets in the last block decide. -/
theorem inRange_bg_block_iff {axb : Addr20} {k r : Nat} (hr : r ≤ 2 ^ 20) :
    Claims.InRange .bg axb (k * 2 ^ 20 + r) ↔
      ∀ o < r, net .bg (o ^^^ (axb ^^^ planeConst .bg).toNat) < r := by
  constructor
  · intro h o ho
    have hlt := h (k * 2 ^ 20 + o) (by omega)
    rw [addrMap_bg_block _ k (ho.trans_le hr)] at hlt
    omega
  · intro h i hi
    by_cases hblock : i < k * 2 ^ 20
    · exact (inRange_bg_blocks axb k i hblock).trans_le (Nat.le_add_right _ r)
    · obtain ⟨o, rfl⟩ := Nat.exists_eq_add_of_le (not_lt.mp hblock)
      have ho : o < r := by omega
      rw [addrMap_bg_block _ k (ho.trans_le hr)]
      exact Nat.add_lt_add_left (h o ho) _

/-- The network sends no nonzero address of its own to 0. -/
theorem net_eq_zero_iff (p : Plane) (w : Nat) : net p w = 0 ↔ w % 2 ^ netBits p = 0 := by
  constructor
  · intro h
    have hinverse : netInverse p 0 = 0 := by simpa using netInverse_net p 0
    rw [← netInverse_net, h, hinverse]
  · intro h
    rw [← net_mod, h, net_zero]

/-- A range of one address asks that the network send it to 0. -/
theorem forall_lt_one_net_lt_one_iff (p : Plane) (x : Nat) :
    (∀ o < 1, net p (o ^^^ x) < 1) ↔ x % 2 ^ netBits p = 0 := by
  rw [← net_eq_zero_iff]
  simp

theorem toNat_xor_mod_eq_zero_iff {n : Nat} (a b : Addr20) :
    (a ^^^ b).toNat % 2 ^ n = 0 ↔ a.toNat % 2 ^ n = b.toNat % 2 ^ n := by
  rw [BitVec.toNat_xor, Nat.xor_mod_two_pow, Nat.xor_eq_zero_iff]

theorem inRange_tx_one_iff (axb : Addr20) : Claims.InRange .tx axb 1 ↔ axb.toNat % 2 ^ 19 = 0x1005d := by
  rw [inRange_tx_iff, forall_lt_one_net_lt_one_iff, toNat_xor_mod_eq_zero_iff]
  rfl

theorem inRange_bg_block_one_iff (axb : Addr20) (k : Nat) :
    Claims.InRange .bg axb (k * 2 ^ 20 + 1) ↔ axb = 0xc1c5b#20 := by
  rw [inRange_bg_block_iff (by omega), forall_lt_one_net_lt_one_iff, toNat_xor_mod_eq_zero_iff, netBits_bg,
    Nat.mod_eq_of_lt axb.isLt, Nat.mod_eq_of_lt (planeConst .bg).isLt, BitVec.toNat_inj]
  rfl

/-- Two addresses whose images differ in a bit from `n` up do not both stay below `2^n` (R81). -/
theorem two_pow_le_net_or {p : Plane} {n : Nat} (o o' x : Nat) (h : 2 ^ n ≤ net p (o ^^^ o')) :
    2 ^ n ≤ net p (o ^^^ x) ∨ 2 ^ n ≤ net p (o' ^^^ x) := by
  by_contra hlt
  obtain ⟨ho, ho'⟩ := not_or.mp hlt
  have hxor : net p (o ^^^ o') = net p (o ^^^ x) ^^^ net p (o' ^^^ x) := by
    rw [← net_xor, Nat.xor_comm o' x, ← Nat.xor_assoc, Nat.xor_xor_cancel_right]
  rw [hxor] at h
  exact absurd (Nat.xor_lt_two_pow (not_le.mp ho) (not_le.mp ho')) (not_lt.mpr h)

/-- A range that holds two such addresses and ends at `2^n` or before is left by one of them. -/
theorem not_forall_net_lt {p : Plane} {n r o o' : Nat} (x : Nat) (ho : o < r) (ho' : o' < r) (hr : r ≤ 2 ^ n)
    (h : 2 ^ n ≤ net p (o ^^^ o')) : ¬∀ o < r, net p (o ^^^ x) < r := by
  intro hall
  rcases two_pow_le_net_or o o' x h with hle | hle
  · exact absurd ((hall o ho).trans_le hr) (not_lt.mpr hle)
  · exact absurd ((hall o' ho').trans_le hr) (not_lt.mpr hle)

/-- Addresses 0 and 1: their images differ in bit 18. -/
theorem not_inRange_tx {axb : Addr20} {len : Nat} (h : 2 ≤ len) (hlen : len ≤ 0x40000) :
    ¬Claims.InRange .tx axb len := by
  rw [inRange_tx_iff]
  exact not_forall_net_lt (n := 18) (o := 0) (o' := 1) _ (by omega) h hlen (by decide)

/-- The images of offsets 0 and 1 differ in bit 1, which two bytes beyond whole blocks do not hold; those of offsets 0
and 2 differ in bit 19. -/
theorem not_inRange_bg_block {axb : Addr20} {k r : Nat} (h : 2 ≤ r) (hr : r ≤ 0x80000) :
    ¬Claims.InRange .bg axb (k * 2 ^ 20 + r) := by
  rw [inRange_bg_block_iff (by omega)]
  rcases h.eq_or_lt with rfl | h
  · exact not_forall_net_lt (n := 1) (o := 0) (o' := 1) _ (by omega) (by omega) (by omega) (by decide)
  · exact not_forall_net_lt (n := 19) (o := 0) (o' := 2) _ (by omega) h hr (by decide)

/-- Settles O42: the rows of R95, each by the closed form of its check. -/
theorem admissibleLengths : Obligations.AdmissibleLengths :=
  ⟨fun p axb => ⟨inRange_zero p axb, injective_zero p axb⟩, inRange_tx_one_iff, fun _ _ => not_inRange_tx,
    fun axb => inRange_tx_of_le axb le_rfl,
    fun axb _ h => ⟨inRange_tx_of_le axb h.le, not_injective_tx_of_lt axb h⟩, fun axb _ => injective_tx_of_le axb,
    inRange_bg_blocks, inRange_bg_block_one_iff, fun _ _ _ => not_inRange_bg_block, injective_bg⟩

/-! ### How a buffer command ends (R93, R94, R96, R97) -/

/-- Settles O36: the range check comes first, for both directions. -/
theorem bufferOutOfRangeEndsWithRangeFault : Obligations.BufferOutOfRangeEndsWithRangeFault := by
  have hfault : ∀ (s : State) (p : Plane) (axb : Addr20) (dxor hdr : Byte), ¬Claims.InRange p axb s.len →
      Claims.EndsWith (Instr.ofFields .dec p axb dxor hdr) s .rangeFault ∧
      Claims.EndsWith (Instr.ofFields .enc p axb dxor hdr) s .rangeFault := fun _ _ _ dxor hdr hr =>
    ⟨exec_of_not_inRange dxor hdr (by decide) hr, exec_of_not_inRange dxor hdr (by decide) hr⟩
  exact fun s axb dxor hdr => ⟨hfault s .tx axb dxor hdr, hfault s .bg axb dxor hdr⟩

/-- An ENC in range whose map is not injective is refused and does nothing else. -/
theorem exec_enc_of_not_injective {s : State} {p : Plane} {axb : Addr20} (dxor hdr : Byte)
    (hr : Claims.InRange p axb s.len) (hj : ¬Claims.Injective p axb s.len) :
    exec (Instr.ofFields .enc p axb dxor hdr) s = .next (s.endNonOk .collisionRefused) := by
  rw [exec_ofFields_enc, encryptBuffer_eq, if_pos (inRange_combinedXor_iff.mpr hr),
    if_neg fun h => hj (injective_combinedXor_iff.mp h)]

/-- With both checks the map is a bijection of the positions below LEN. -/
theorem addrMap_bijOn_of_admitted {p : Plane} {axb : Addr20} {len : Nat} (hr : Claims.InRange p axb len)
    (hj : Claims.Injective p axb len) :
    Set.BijOn (addrMap p (axb ^^^ planeConst p)) (Set.Iio len) (Set.Iio len) :=
  addrMap_bijOn (inRange_combinedXor_iff.mpr hr) (injective_combinedXor_iff.mpr hj)

/-- Settles O37: ENC checks the collision after the range, and DEC does not check it. -/
theorem nonInjectiveEncryptIsRefused : Obligations.NonInjectiveEncryptIsRefused := by
  intro s axb dxor hdr p hr
  exact ⟨fun hj => ⟨exec_enc_of_not_injective dxor hdr hr hj, _, exec_dec_of_inRange dxor hdr hr, rfl⟩,
    addrMap_bijOn_of_admitted hr⟩

/-- Settles O38: the bg map passes the collision check, so ENC.BG ends with OK or RANGE_FAULT. -/
theorem encryptBgNeverCollides : Obligations.EncryptBgNeverCollides := by
  refine ⟨injective_bg, fun s axb dxor hdr => ?_⟩
  by_cases hr : Claims.InRange .bg axb s.len
  · exact ⟨_, _, exec_enc_of_admitted (p := .bg) dxor hdr hr (injective_bg axb _), rfl, by decide⟩
  · exact ⟨_, _, exec_of_not_inRange (o := .enc) (p := .bg) dxor hdr (by decide) hr, rfl, by decide⟩

/-- Without an address the per-address steps leave DST. -/
theorem decImage_of_len_eq_zero {s : State} (h : s.len = 0) (p : Plane) (x : Addr20) (dxor : Byte) :
    decImage p x dxor s = s.dst := by
  rw [decImage, h]
  rfl

theorem encImage_of_len_eq_zero {s : State} (h : s.len = 0) (p : Plane) (x : Addr20) (dxor hdr : Byte) :
    encImage p x dxor hdr s = s.dst := by
  rw [encImage, h]
  rfl

theorem dec_endsWith_ok_of_len_eq_zero {s : State} (h : s.len = 0) (p : Plane) (axb : Addr20) (dxor hdr : Byte) :
    Claims.EndsWith (Instr.ofFields .dec p axb dxor hdr) s .okBuffer := by
  have he := exec_dec_of_inRange dxor hdr (h ▸ inRange_zero p axb)
  rwa [decImage_of_len_eq_zero h] at he

theorem enc_endsWith_ok_of_len_eq_zero {s : State} (h : s.len = 0) (p : Plane) (axb : Addr20) (dxor hdr : Byte) :
    Claims.EndsWith (Instr.ofFields .enc p axb dxor hdr) s .okBuffer := by
  have he := exec_enc_of_admitted dxor hdr (h ▸ inRange_zero p axb) (h ▸ injective_zero p axb)
  rwa [encImage_of_len_eq_zero h] at he

/-- Settles O43: length 0 passes both checks, and there is no address to step over. -/
theorem emptyBufferIsOk : Obligations.EmptyBufferIsOk := fun _ axb dxor hdr h =>
  ⟨dec_endsWith_ok_of_len_eq_zero h .tx axb dxor hdr, dec_endsWith_ok_of_len_eq_zero h .bg axb dxor hdr,
    enc_endsWith_ok_of_len_eq_zero h .tx axb dxor hdr, enc_endsWith_ok_of_len_eq_zero h .bg axb dxor hdr⟩

/-! ### The bytes of an admitted command (R98) -/

/-- A DEC in range completes by the closed form. -/
theorem exists_decrypted {s : State} {p : Plane} {axb : Addr20} (dxor hdr : Byte) (hr : Claims.InRange p axb s.len) :
    ∃ t, exec (Instr.ofFields .dec p axb dxor hdr) s = .next t ∧ Claims.Decrypted p axb dxor s t := by
  refine ⟨_, exec_dec_of_inRange dxor hdr hr, rfl, rfl, ⟨rfl, rfl, rfl, rfl, rfl, rfl⟩, fun i hi => ?_,
    fun _ => read_decImage_of_le⟩
  rw [← decByte_eq]
  exact read_decImage hi

/-- An ENC that passes both checks completes by the closed form. -/
theorem exists_encrypted {s : State} {p : Plane} {axb : Addr20} (dxor hdr : Byte) (hr : Claims.InRange p axb s.len)
    (hj : Claims.Injective p axb s.len) :
    ∃ t, exec (Instr.ofFields .enc p axb dxor hdr) s = .next t ∧ Claims.Encrypted p axb dxor hdr s t := by
  refine ⟨_, exec_enc_of_admitted dxor hdr hr hj, rfl, rfl, ⟨rfl, rfl, rfl, rfl, rfl, rfl⟩, fun i hi => ?_,
    fun _ => read_encImage_of_le (inRange_combinedXor_iff.mpr hr)⟩
  rw [← encByte_eq]
  exact read_encImage (injective_combinedXor_iff.mpr hj) hi

/-- Settles O34: the closed form of DEC in each plane. -/
theorem decryptOfABufferInRange : Obligations.DecryptOfABufferInRange := fun _ _ dxor hdr =>
  ⟨exists_decrypted (p := .tx) dxor hdr, exists_decrypted (p := .bg) dxor hdr⟩

/-- Settles O35: the closed form of ENC in each plane; the bg map is always injective. -/
theorem encryptOfAnAdmittedBuffer : Obligations.EncryptOfAnAdmittedBuffer := fun _ axb dxor hdr =>
  ⟨exists_encrypted (p := .tx) dxor hdr, fun hr => exists_encrypted (p := .bg) dxor hdr hr (injective_bg axb _)⟩

/-- Settles O44: a length of `2^19` passes both checks of tx. -/
theorem txImageOfFullLengthCompletes : Obligations.TxImageOfFullLengthCompletes := by
  intro s axb dxor hdr hlen
  have hr : Claims.InRange .tx axb s.len := inRange_tx_of_le axb hlen.ge
  have hj : Claims.Injective .tx axb s.len := injective_tx_of_le axb hlen.le
  exact ⟨exists_decrypted (p := .tx) dxor hdr hr, exists_encrypted (p := .tx) dxor hdr hr hj⟩

/-- Settles O45: a length of whole blocks passes both checks of bg. -/
theorem bgImageOfWholeBlocksCompletes : Obligations.BgImageOfWholeBlocksCompletes := by
  intro s axb dxor hdr k hlen
  have hr : Claims.InRange .bg axb s.len := hlen ▸ inRange_bg_blocks axb k
  exact ⟨exists_decrypted (p := .bg) dxor hdr hr, exists_encrypted (p := .bg) dxor hdr hr (injective_bg axb _)⟩

/-- Settles O46: the tx map and the data mask both have the period `2^19`, and the map is then not injective. -/
theorem txImageBeyondTheNetwork : Obligations.TxImageBeyondTheNetwork := by
  intro s axb dxor hdr hlen
  have hr : Claims.InRange .tx axb s.len := inRange_tx_of_le axb hlen.le
  obtain ⟨t, ht, hdec⟩ := exists_decrypted (p := .tx) dxor hdr hr
  refine ⟨⟨t, ht, hdec, fun i hi => ?_⟩,
    exec_enc_of_not_injective (p := .tx) dxor hdr hr (not_injective_tx_of_lt axb hlen)⟩
  obtain ⟨-, -, -, hbytes, -⟩ := hdec
  have hmask : (i + 2 ^ 19) % 256 = i % 256 := by omega
  rw [hbytes i (by omega), hbytes _ hi, addrMap_tx_add, hmask]

/-! ### The header region of encrypt (R90) -/

/-- The byte of a header address does not depend on the plaintext, and that of any other depends on its own alone. -/
theorem encByte_congr {p : Plane} {i : Nat} {v v' : Byte} (hdr dxor : Byte) (h : hdrLen p ≤ i → v' = v) :
    encByte p hdr dxor i v' = encByte p hdr dxor i v := by
  rw [encByte, encByte, encValue, encValue]
  split_ifs with hi
  · rfl
  · rw [h (not_lt.mp hi)]

/-- An admitted encrypt does not see the plaintext of the header region. -/
theorem read_encImage_congr_of_header {p : Plane} {x : Addr20} {dxor hdr : Byte} {s s' : State} (hlen : s'.len = s.len)
    (hsrc : ∀ k, hdrLen p ≤ k → Memory.read s'.src k = Memory.read s.src k) (hr : inRange p x s.len = true)
    (hj : injective p x s.len = true) {k : Nat} (hk : k < s.len) :
    Memory.read (encImage p x dxor hdr s') k = Memory.read (encImage p x dxor hdr s) k := by
  obtain ⟨i, hi, rfl⟩ := (addrMap_bijOn hr hj).surjOn hk
  rw [read_encImage (hlen ▸ hj) (hlen ▸ hi), read_encImage hj hi]
  exact encByte_congr hdr dxor (hsrc i)

/-- Settles O41: the checks see LEN alone, and the bytes see the plaintext from the header region up. -/
theorem encryptDiscardsTheHeaderPlaintext : Obligations.EncryptDiscardsTheHeaderPlaintext := by
  intro s s' t t' p axb dxor hdr hlen hsrc ht ht'
  change SameAnswer s.len t t'
  rw [exec_ofFields_enc, encryptBuffer_eq, Host.Outcome.next.injEq] at ht ht'
  rw [hlen] at ht'
  subst ht ht'
  split_ifs with hr hj
  · exact sameAnswer_endOk_okBuffer s s' fun _ hk => read_encImage_congr_of_header hlen hsrc hr hj hk
  · exact sameAnswer_endNonOk _ s s' (by decide)
  · exact sameAnswer_endNonOk _ s s' (by decide)

/-! ### Round trips (R104 to R106) -/

/-- The data mask of R85, applied twice, cancels itself. -/
theorem xor_mask_cancel (c m dxor : Byte) : c ^^^ m ^^^ dxor ^^^ m ^^^ dxor = c := by
  rw [BitVec.xor_assoc c m dxor, BitVec.xor_assoc, BitVec.xor_assoc, BitVec.xor_self, BitVec.xor_zero]

/-- Settles O47: a position is the image of one address, whose mask DEC and ENC both apply; a header address has
HDR. -/
theorem decryptThenEncryptReproducesTheCiphertext : Obligations.DecryptThenEncryptReproducesTheCiphertext := by
  intro s p axb dxor hdr hdr' spare hr hj
  obtain ⟨t, ht, htok, -, -, hplain, -⟩ := exists_decrypted dxor hdr' hr
  obtain ⟨u, hu, huok, -, -, hcipher, -⟩ :=
    exists_encrypted (s := t.bindBuffers s.len t.dst spare) dxor hdr hr hj
  refine ⟨t, u, ht, htok, hu, huok, fun k hk hne => ?_, fun i hi hheader => ?_⟩
  · obtain ⟨i, hi, rfl⟩ := (addrMap_bijOn_of_admitted hr hj).surjOn hk
    have hheader : ¬i < hdrLen p := fun hlt => hne i hlt rfl
    rw [hcipher i hi, if_neg hheader, State.bindBuffers_src, hplain i hi, xor_mask_cancel]
  · rw [hcipher i hi, if_pos hheader]

/-- Settles O48: the byte encrypted at the image of an address is read back from there, and its mask cancels. -/
theorem encryptThenDecryptReproducesThePlaintext : Obligations.EncryptThenDecryptReproducesThePlaintext := by
  intro s p axb dxor hdr hdr' spare hr hj
  obtain ⟨t, ht, htok, -, -, hcipher, -⟩ := exists_encrypted dxor hdr hr hj
  obtain ⟨u, hu, huok, -, -, hplain, -⟩ := exists_decrypted (s := t.bindBuffers s.len t.dst spare) dxor hdr' hr
  refine ⟨t, u, ht, htok, hu, huok, fun i hi => ?_⟩
  rw [hplain i hi, State.bindBuffers_src, hcipher i hi, xor_mask_cancel]

/-- Settles O49: the round trip of O48 under the second set, from the plaintext under the first. -/
theorem crossVariantReencryptionKeepsTheImage : Obligations.CrossVariantReencryptionKeepsTheImage := by
  intro s p va vb spare spare' hra hrb hjb
  obtain ⟨t, ht, -⟩ := exists_decrypted va.dxor va.hdr hra
  obtain ⟨u, v, hu, -, hv, hok, hbytes⟩ :=
    encryptThenDecryptReproducesThePlaintext (t.bindBuffers s.len t.dst spare) p vb.axb vb.dxor vb.hdr vb.hdr spare' hrb
      hjb
  exact ⟨t, u, v, ht, hu, hv, hok, hbytes⟩

end Sys2Proof.Machine

/-! PROOFS. The statements of family 60_exceptions: the order in which the causes of a status apply, and which command can
end with which status. -/

namespace Sys2Proof.Machine

/-! ### The first cause that applies to a legal command (R115) -/

/-- The status of a legal command: a NET has no check, a DEC checks the range, and an ENC the range and then the
collision. -/
def firstCause (o : Op) (p : Plane) (axb : Addr20) (len : Nat) : Status :=
  match o with
  | .net => .ok
  | .dec => if inRange p (combinedXor p axb) len then .ok else .rangeFault
  | .enc =>
    if inRange p (combinedXor p axb) len then
      if injective p (combinedXor p axb) len then .ok else .collisionRefused
    else .rangeFault

section
variable {o : Op} {p : Plane} {axb : Addr20} {len : Nat}

theorem firstCause_of_not_inRange (ho : o ≠ .net) (hr : ¬Claims.InRange p axb len) :
    firstCause o p axb len = .rangeFault := by
  have hr' := mt inRange_combinedXor_iff.mp hr
  cases o with
  | net => exact absurd rfl ho
  | dec => exact if_neg hr'
  | enc => exact if_neg hr'

theorem firstCause_dec_of_inRange (hr : Claims.InRange p axb len) : firstCause .dec p axb len = .ok :=
  if_pos (inRange_combinedXor_iff.mpr hr)

theorem firstCause_enc_of_not_injective (hr : Claims.InRange p axb len) (hj : ¬Claims.Injective p axb len) :
    firstCause .enc p axb len = .collisionRefused :=
  (if_pos (inRange_combinedXor_iff.mpr hr)).trans (if_neg (mt injective_combinedXor_iff.mp hj))

theorem firstCause_enc_of_admitted (hr : Claims.InRange p axb len) (hj : Claims.Injective p axb len) :
    firstCause .enc p axb len = .ok :=
  (if_pos (inRange_combinedXor_iff.mpr hr)).trans (if_pos (injective_combinedXor_iff.mpr hj))

theorem firstCause_ne_configError : firstCause o p axb len ≠ .configError := by
  cases o with
  | net => exact nofun
  | dec => simp only [firstCause]; split_ifs <;> decide
  | enc => simp only [firstCause]; split_ifs <;> decide

theorem op_ne_net_of_firstCause_eq_rangeFault (h : firstCause o p axb len = .rangeFault) : o ≠ .net := by
  rintro rfl
  cases h

/-- Only ENC checks the collision, and the bg map always passes that check (R103). -/
theorem eq_enc_tx_of_firstCause_eq_collisionRefused (h : firstCause o p axb len = .collisionRefused) :
    o = .enc ∧ p = .tx := by
  by_cases hr : Claims.InRange p axb len
  · cases o with
    | net => cases h
    | dec => rw [firstCause_dec_of_inRange hr] at h; cases h
    | enc =>
      cases p with
      | tx => exact ⟨rfl, rfl⟩
      | bg => rw [firstCause_enc_of_admitted hr (injective_bg axb len)] at h; cases h
  · have ho : o ≠ .net := by rintro rfl; cases h
    rw [firstCause_of_not_inRange ho hr] at h
    cases h

end

/-! ### A command ends with its first cause -/

theorem exec_ofFields_net (p : Plane) (axb : Addr20) (dxor hdr : Byte) (s : State) :
    exec (Instr.ofFields .net p axb dxor hdr) s = queryAddress p axb s := by
  cases p with
  | tx => rfl
  | bg => rfl

theorem exists_exec_ofFields_firstCause (o : Op) (p : Plane) (axb : Addr20) (dxor hdr : Byte) (s : State) :
    ∃ t r, exec (Instr.ofFields o p axb dxor hdr) s = .next t ∧ t.response = some r ∧
      r.status = firstCause o p axb s.len := by
  cases o with
  | net => exact ⟨_, _, exec_ofFields_net p axb dxor hdr s, rfl, rfl⟩
  | dec =>
    by_cases hr : Claims.InRange p axb s.len
    · exact ⟨_, _, exec_dec_of_inRange dxor hdr hr, rfl, (firstCause_dec_of_inRange hr).symm⟩
    · exact ⟨_, _, exec_of_not_inRange dxor hdr (by decide) hr, rfl, (firstCause_of_not_inRange (by decide) hr).symm⟩
  | enc =>
    by_cases hr : Claims.InRange p axb s.len
    · by_cases hj : Claims.Injective p axb s.len
      · exact ⟨_, _, exec_enc_of_admitted dxor hdr hr hj, rfl, (firstCause_enc_of_admitted hr hj).symm⟩
      · exact ⟨_, _, exec_enc_of_not_injective dxor hdr hr hj, rfl, (firstCause_enc_of_not_injective hr hj).symm⟩
    · exact ⟨_, _, exec_of_not_inRange dxor hdr (by decide) hr, rfl, (firstCause_of_not_inRange (by decide) hr).symm⟩

/-- Every legal command answers, and its status is the first cause that applies to its fields and LEN. -/
theorem exists_exec_firstCause (i : Instr) (s : State) :
    ∃ t r, exec i s = .next t ∧ t.response = some r ∧ r.status = firstCause i.op i.plane i.axb s.len := by
  simpa using exists_exec_ofFields_firstCause i.op i.plane i.axb i.dxor i.hdr s

theorem status_eq_firstCause {i : Instr} {s t : State} {r : Response} (h : exec i s = .next t)
    (hr : t.response = some r) : r.status = firstCause i.op i.plane i.axb s.len := by
  obtain ⟨t', r', ht', hr', hstatus⟩ := exists_exec_firstCause i s
  cases h.symm.trans ht'
  cases hr.symm.trans hr'
  exact hstatus

/-- Settles O13: a descriptor that does not decode is CONFIG_ERROR, and a legal one ends with the first cause of its
command. -/
theorem statusIsTheFirstCauseThatApplies : Obligations.StatusIsTheFirstCauseThatApplies := by
  intro s hs
  cases hd : decode s.desc with
  | error e => exact ⟨_, _, step_of_decode_error hs hd, rfl, fun _ _ => rfl, fun _ => nofun⟩
  | ok i =>
    obtain ⟨t, r, he, hr, hstatus⟩ := exists_exec_firstCause i s.accept
    refine ⟨t, r, step_of_exec hs hd he, hr, fun _ => nofun, fun j hj => ?_⟩
    cases hj
    rw [hstatus]
    refine ⟨fun ho => ?_, firstCause_of_not_inRange, fun ho => ?_, fun ho => ?_⟩
    · rw [ho]
      rfl
    · rw [ho]
      exact firstCause_dec_of_inRange
    · rw [ho]
      exact fun hin => ⟨firstCause_enc_of_not_injective hin, firstCause_enc_of_admitted hin⟩

/-! ### The table of statuses (R110) -/

theorem kind_eq_success_iff (st : Status) : st.kind = .success ↔ st = .ok := by cases st <;> decide

theorem kind_eq_refusal_iff (st : Status) : st.kind = .refusal ↔ st = .collisionRefused := by cases st <;> decide

/-- Settles O14: the table read off, and the commands of each status from the first cause that applies. -/
theorem statusCodesAndWhoRaisesThem : Obligations.StatusCodesAndWhoRaisesThem := by
  refine ⟨⟨rfl, rfl, rfl, rfl⟩, fun st => ⟨kind_eq_success_iff st, kind_eq_refusal_iff st⟩, fun i s t r h hr => ?_⟩
  rw [status_eq_firstCause h hr]
  exact ⟨firstCause_ne_configError, op_ne_net_of_firstCause_eq_rangeFault, eq_enc_tx_of_firstCause_eq_collisionRefused⟩

end Sys2Proof.Machine

/-! PROOFS. The statements of family 70_reset_and_hazards: the idle step, what a reset frees and what it keeps, the host's
acts and the invariant, and the refusal of aliased ports. -/

namespace Sys2Proof.Machine

/-! ### Steps without and with a command -/

/-- Settles O7: the step is the idle step. -/
theorem idleStepExecutesNothing : Obligations.IdleStepExecutesNothing := fun _ h => step_of_not_issued h

/-- A step leaves a response exactly if it ran a command (R26). -/
theorem isSome_response_of_step {s t : State} (h : step s = .next t) : t.response.isSome = s.issued := by
  rcases step_eq_idle_or_endOk h with ⟨hs, rfl⟩ | ⟨hs, r, d, rfl, -, -⟩
  · rw [hs, State.idle_response, Option.isSome_none]
  · rw [hs, State.endOk_response, Option.isSome_some]

/-- Settles O9: no command faults or is refused, and every end of a command carries a response. -/
theorem everyStepAnswersANextState : Obligations.EveryStepAnswersANextState := by
  intro s
  obtain ⟨t, ht⟩ := exists_step_eq_next s
  exact ⟨t, ht, isSome_response_of_step ht⟩

/-! ### Reset (R128, R131) -/

/-- Whether or not a command is in flight, a reset drops the valid line, BUSY and the response, and of the host's ports it
writes DST alone, which stays in canonical form and below LEN. -/
theorem State.assertReset_eq (s : State) :
    ∃ d n, s.assertReset = { s with issued := false, busy := false, response := none, dst := d, freeTick := n } ∧
      (Memory.wf s.dst = true → Memory.wf d = true) ∧
      (Memory.within s.len s.dst = true → Memory.within s.len d = true) := by
  cases h : s.inFlight with
  | true =>
    exact ⟨_, _, s.assertReset_of_inFlight h, fun _ => Memory.wf_ofBytes _ _, fun _ => Memory.within_ofBytes _ _⟩
  | false => exact ⟨_, _, s.assertReset_of_not_inFlight h, id, id⟩

/-- Settles O16: at power-on by the values of reset, and as an event because it drops the valid line, BUSY and the
response. -/
theorem resetLeavesTheBlockIdle : Obligations.ResetLeavesTheBlockIdle := by
  refine ⟨⟨rfl, rfl, rfl⟩, fun s => ?_⟩
  obtain ⟨d, n, heq, -, -⟩ := s.assertReset_eq
  rw [heq]
  exact ⟨rfl, rfl, rfl⟩

/-- Settles O17: the frame of a reset, and DST in each of its two cases. -/
theorem resetInMidCommandFreesOnlyDst : Obligations.ResetInMidCommandFreesOnlyDst := by
  refine fun s => ⟨?_, fun h i hi => ?_, fun h => ?_⟩
  · obtain ⟨d, n, heq, -, -⟩ := s.assertReset_eq
    rw [heq]
    exact ⟨rfl, rfl, rfl, rfl⟩
  · rw [s.assertReset_of_inFlight h, Memory.read_ofBytes, if_pos hi]
  · rw [s.assertReset_of_not_inFlight h]

/-! ### The host's acts keep the invariant -/

/-- Settles O18: the buffers are empty and the block is idle. -/
theorem invariantHoldsAtReset : Obligations.InvariantHoldsAtReset := by
  unfold Obligations.InvariantHoldsAtReset
  rw [State.inv_iff]
  exact ⟨rfl, rfl, rfl, rfl, rfl, fun _ => rfl⟩

section
variable {s : State} (hinv : s.inv = true)
include hinv

/-- An issue clears the response, and touches neither the buffers nor BUSY. -/
theorem State.inv_issue (d : Word) (a : Nat) : (s.issue d a).inv = true := by
  obtain ⟨hsrc, hsrcIn, hdst, hdstIn, hbusy, -⟩ := s.inv_iff.mp hinv
  rw [State.inv_iff]
  exact ⟨hsrc, hsrcIn, hdst, hdstIn, hbusy, fun _ => rfl⟩

theorem State.inv_assertReset : s.assertReset.inv = true := by
  obtain ⟨hsrc, hsrcIn, hdst, hdstIn, -, -⟩ := s.inv_iff.mp hinv
  obtain ⟨d, n, heq, hwf, hin⟩ := s.assertReset_eq
  rw [heq, State.inv_iff]
  exact ⟨hsrc, hsrcIn, hwf hdst, hin hdstIn, rfl, fun _ => rfl⟩

/-- A bind replaces both buffers, and touches neither BUSY, the valid line nor the response. -/
theorem State.inv_bindBuffers {len : Nat} {src dst : Memory} (hsrc : Memory.wf src = true) (hdst : Memory.wf dst = true)
    (hsrcIn : Memory.within len src = true) (hdstIn : Memory.within len dst = true) :
    (s.bindBuffers len src dst).inv = true := by
  obtain ⟨-, -, -, -, hbusy, hresponse⟩ := s.inv_iff.mp hinv
  rw [State.inv_iff]
  exact ⟨hsrc, hsrcIn, hdst, hdstIn, hbusy, hresponse⟩

end

/-- Settles O20: each act by its own lemma; the pipeline's word is an issue. -/
theorem hostEventsKeepTheInvariant : Obligations.HostEventsKeepTheInvariant := fun s hinv =>
  ⟨State.inv_issue hinv, fun nbits w => s.withFetchWord_eq nbits w ▸ State.inv_issue hinv _ _,
    State.inv_assertReset hinv, fun _ _ _ => State.inv_bindBuffers hinv⟩

/-! ### Aliased ports (R134) -/

/-- The ports are compared before the host looks at its buffers or the block at the descriptor. -/
theorem HostSide.issueCommand_of_aliased (h : HostSide) {c : HostCommand} {b : Nat} (hports : c.ports = some (b, b)) :
    h.issueCommand c = .refused .aliasedBuffers := by
  simp [HostSide.issueCommand, hports]

/-- Settles O51: both ports are bound to the one buffer. -/
theorem aliasedPortsAreRefused : Obligations.AliasedPortsAreRefused := fun h _ _ _ => h.issueCommand_of_aliased rfl

end Sys2Proof.Machine
